-- ==== Sys2Proof/Word.lean ====
section
/-! DEFINITION. The word widths of GF2MVM (00_scope.md R6, R11) and the operand type every command carries. -/

namespace Sys2Proof

/-- The legal widths of a word: exactly {8, 16, 32, 64, 128}, for the input word I and for the output word O (R6). -/
inductive Width where
  | w8
  | w16
  | w32
  | w64
  | w128
  deriving DecidableEq, Repr

/-- The number of bits of a width (R6). -/
@[reducible] def Width.bits : Width → Nat
  | .w8 => 8
  | .w16 => 16
  | .w32 => 32
  | .w64 => 64
  | .w128 => 128

/-- A command's operand as syntax: an unsigned value of at most 128 bits, the widest legal W_I (R6, R11).
A configuration's data field is its low W_I bits (R61, R63); WellFormed says that the value fits them.
DESIGN CHOICE (log 7). -/
abbrev Operand := BitVec 128

end Sys2Proof
end

