-- ==== Sys2Proof/Config.lean ====
section
/-! DEFINITION. What is fixed when one GF2MVM block is built: its two width parameters (R6), and what follows from them. -/

namespace Sys2Proof

/-- The build configuration of one block (R6, R26): W_I and W_O, chosen independently from the legal set.
Both stay open: State carries one, and every statement holds for each of the 25 (log 1). -/
structure Config where
  /-- W_I, the width of the vector register and of every matrix row. -/
  wI : Width
  /-- W_O, the width of the accumulator and the result. -/
  wO : Width
  deriving DecidableEq, Repr

/-- W_I in bits (R6). -/
abbrev Config.vecBits (cfg : Config) : Nat := cfg.wI.bits

/-- W_O in bits (R6). -/
abbrev Config.accBits (cfg : Config) : Nat := cfg.wO.bits

/-- W_C = W_I + 2, the width of a command word (R8). -/
abbrev Config.cmdBits (cfg : Config) : Nat := cfg.wI.bits + 2

/-- The reference configuration W_I = 16, W_O = 32 (R10): a choice for testing only.
State.reset and decodeTableWord, whose fixed types leave no room for a configuration, take it.
DESIGN CHOICE (log 1). -/
def Config.reference : Config := { wI := .w16, wO := .w32 }

end Sys2Proof
end

