-- ==== Sys2Proof/Syntax.lean ====
section
/-! DEFINITION. The commands of GF2MVM, one constructor per row of spec/opcode_table.json (R64). -/

namespace Sys2Proof

/-- One command of the block. Each carries the whole data field of its word (R61). -/
inductive Instr where
  /-- `nop`: no operation (R84). Its data is ignored, and is kept here because the word carries it
  (R65; the assembler's operand is optional, R67). DESIGN CHOICE (log 8). -/
  | nop (data : Operand)
  /-- `setp v`: start a product fold (R85). -/
  | setp (v : Operand)
  /-- `sets v`: start a systematic fold (R86). -/
  | sets (v : Operand)
  /-- `row r`: fold one row into the accumulator (R87). -/
  | row (r : Operand)
  deriving DecidableEq, Repr

end Sys2Proof
end

