-- ==== Sys2Proof/WellFormed.lean ====
section
/-! DEFINITION. Well-formed commands: the one check the spec makes of a command as syntax is that its operand fits
in W_I unsigned bits (R63, R67). Every operand value that fits is legal for every command (R65). -/

namespace Sys2Proof

/-- The operand is an unsigned W_I-bit value (R67: one that does not fit is refused). -/
def Operand.fits (cfg : Config) (d : Operand) : Bool := decide (d.toNat < 2 ^ cfg.vecBits)

/-- A command that a word of configuration `cfg` can carry. -/
def Instr.wellFormed (cfg : Config) : Instr → Bool
  | .nop data => Operand.fits cfg data
  | .setp v => Operand.fits cfg v
  | .sets v => Operand.fits cfg v
  | .row r => Operand.fits cfg r

end Sys2Proof
end

