-- ==== Sys2Proof/Decode.lean ====
section
/-! DEFINITION. Decoding and encoding of command words (30_encoding.md): one format, W_C = W_I + 2 bits, with `op` in
`cmd[1:0]` and `data` in `cmd[W_I+1:2]` (R61). Decoding a W_C-bit word is total (R65): no encoding is reserved. -/

namespace Sys2Proof

/-- `op = cmd[1:0]` (R61). -/
def opField {n : Nat} (w : BitVec n) : BitVec 2 := w.extractLsb' 0 2

/-- `data = cmd[W_I+1:2]`, taken verbatim: nothing is sign-extended, scaled or shifted (R63). -/
def dataBits (cfg : Config) (w : BitVec cfg.cmdBits) : BitVec cfg.vecBits := w.extractLsb' 2 cfg.vecBits

/-- The command a word selects: `op` alone selects it (R62, R64), and its operand is the data field. -/
def decode (cfg : Config) (w : BitVec cfg.cmdBits) : Instr :=
  let data : Operand := (dataBits cfg w).setWidth 128
  match (opField w).getLsbD 1, (opField w).getLsbD 0 with
  | false, false => .nop data
  | false, true => .setp data
  | true, false => .sets data
  | true, true => .row data

/-- Why a number is no command word. -/
inductive DecodeReject where
  /-- It has a bit at or above W_C: every command moves exactly W_C bits and no other command exists (R43, R62). -/
  | beyondCommandWord
  deriving DecidableEq, Repr

/-- Decoding of a number: total on any number, rejecting by name one that is no W_C-bit word (log 5). -/
def decodeNumber (cfg : Config) (w : Nat) : Except DecodeReject Instr :=
  if w < 2 ^ cfg.cmdBits then .ok (decode cfg (BitVec.ofNat cfg.cmdBits w)) else .error .beyondCommandWord

/-- The instruction the decoder reads from an `nbits`-bit table word: `spec/opcode_table.json` numbers a word's bits as
the command port does, bit 0 the least significant, so `w` is the word itself, its bits above `nbits` zero.
The word is read in the reference configuration, which State.reset has (log 1, log 5). -/
def decodeTableWord (nbits w : Nat) : Option Instr := (decodeNumber Config.reference (w % 2 ^ nbits)).toOption

/-- The opcode of a command (R64). -/
def Instr.op : Instr → BitVec 2
  | .nop _ => 0b00#2
  | .setp _ => 0b01#2
  | .sets _ => 0b10#2
  | .row _ => 0b11#2

/-- The operand of a command. -/
def Instr.data : Instr → Operand
  | .nop d => d
  | .setp d => d
  | .sets d => d
  | .row d => d

/-- The mnemonic of a command (R64, R67). -/
def Instr.mnemonic : Instr → String
  | .nop _ => "nop"
  | .setp _ => "setp"
  | .sets _ => "sets"
  | .row _ => "row"

/-- The encoded word `(operand << 2) | op`, W_C bits wide (R67). -/
def encode (cfg : Config) (i : Instr) : BitVec cfg.cmdBits :=
  (i.data.setWidth cfg.cmdBits <<< 2) ||| i.op.setWidth cfg.cmdBits

/-- One row of the opcode table (R64): a word belongs to the row when `word & mask = pattern`. -/
structure OpcodeRow where
  mnemonic : String
  mask : Nat
  pattern : Nat
  deriving DecidableEq, Repr

/-- The opcode table (R64): the mask is 0x3 over the command word, and the match is the op value. -/
def opcodeTable : List OpcodeRow :=
  [ { mnemonic := "nop", mask := 0x3, pattern := 0x0 },
    { mnemonic := "setp", mask := 0x3, pattern := 0x1 },
    { mnemonic := "sets", mask := 0x3, pattern := 0x2 },
    { mnemonic := "row", mask := 0x3, pattern := 0x3 } ]

/-- The row's test on a word. -/
def OpcodeRow.selects {n : Nat} (r : OpcodeRow) (w : BitVec n) : Bool :=
  (w &&& BitVec.ofNat n r.mask) == BitVec.ofNat n r.pattern

end Sys2Proof
end

