-- ==== Sys2Proof/Machine/State.lean ====
section
/-! DEFINITION. The state of one GF2MVM block, as plain data: its configuration, its two registers, the model's refused
mark, and the coming clock cycles of its ports. The block has no memory, program counter, flag, mode or control
register (R20, R23 to R28), so State holds none. -/

namespace Sys2Proof.Machine

/-- The architectural state, exactly the pair (VEC, ACC) (R20). -/
structure Regs (cfg : Config) where
  /-- VEC, the vector register; bit i is coordinate i (R21). -/
  vec : BitVec cfg.vecBits
  /-- ACC, the accumulator (R22). -/
  acc : BitVec cfg.accBits
  deriving DecidableEq, Repr

/-- The registers a reset edge writes: VEC = 0 and ACC = 0 (R30, R130). -/
def Regs.zero (cfg : Config) : Regs cfg := { vec := 0#cfg.vecBits, acc := 0#cfg.accBits }

/-- One clock cycle of the block's input ports (R60), up to the rising edge that closes it, together with what
READY_POLICY chooses in it (R9: a free choice in each cycle, log 3). -/
structure PortCycle (wordBits : Nat) where
  /-- `rst`: synchronous reset, active high (R130). -/
  rst : Bool
  /-- `cmd_valid`: the host offers a command. -/
  cmdValid : Bool
  /-- `cmd_word`: the word on the command port, W_C bits. -/
  cmdWord : BitVec wordBits
  /-- READY_POLICY's choice for this cycle; it shows on `cmd_ready` when `rst` is low. -/
  readyChoice : Bool
  deriving DecidableEq, Repr

/-- What the rising edge that closes a cycle does (R130, R134). -/
inductive EdgeEvent (wordBits : Nat) where
  /-- `rst` is 1: the registers are reset and no command is accepted. -/
  | reset
  /-- No command is accepted: the registers hold. -/
  | hold
  /-- The word on the port is accepted. -/
  | accept (word : BitVec wordBits)
  deriving DecidableEq, Repr

/-- The block raises no exception: no fault exists (R110), so nothing can raise one. -/
inductive Fault where
  deriving DecidableEq, Repr

/-- Why the model has no next state. -/
inductive Refusal where
  /-- Raised by exec's arm of an instruction without a meaning; safe. No arm is left so. -/
  | notModelled (mnemonic : String)
  /-- SETS_NOT_IN_CONFIG: raised by `sets` accepted where SYS_EN is false, and by every later step of that run
  (R111). The hardware's response is unspecified; safe: nothing can be proved of such a run. -/
  | setsNotInConfig
  deriving DecidableEq, Repr

/-- The state of one block and of the ports it is driven through. -/
structure State where
  /-- The build configuration; no command reads or writes it (R26). -/
  cfg : Config
  /-- VEC and ACC (R20). -/
  regs : Regs cfg
  /-- The model's own refused mark (R20, R111): once set it is never cleared, and no further step is made. -/
  refusedMark : Bool
  /-- The coming clock cycles of the ports, the current one first (R60, log 2). -/
  cycles : List (PortCycle cfg.cmdBits)
  deriving DecidableEq, Repr

/-- The state right after reset in any configuration (R30): registers zero, no mark, nothing driven on the ports. -/
def State.resetAt (cfg : Config) : State :=
  { cfg := cfg, regs := Regs.zero cfg, refusedMark := false, cycles := [] }

/-- The state right after reset (R30), in the reference configuration (R10, log 1). -/
def State.reset : State := State.resetAt Config.reference

end Sys2Proof.Machine
end

