-- ==== Sys2Proof/Machine/Ops.lean ====
section
/-! DEFINITION. The shared operations of the commands: GF(2) arithmetic (R80, R81), shift-and-insert (R82), the register
writes, and the model's refusal (R111). The block raises no exception and has no trap (R110, R115, R116), so there
is no exception entry or return here; it has no memory (R40) and no flag (R25), so there is no memory or flag operation. -/

namespace Sys2Proof.Machine

/-- How many of the bits below `k` are 1. -/
def popcountBelow {n : Nat} (w : BitVec n) : Nat → Nat
  | 0 => 0
  | k + 1 => popcountBelow w k + (w.getLsbD k).toNat

/-- `popcount(w)`: the number of bits of w equal to 1 (R12). -/
def popcount {n : Nat} (w : BitVec n) : Nat := popcountBelow w n

/-- `parity(w) = popcount(w) mod 2`, a single bit (R12). -/
def parity {n : Nat} (w : BitVec n) : Bool := popcount w % 2 == 1

/-- `dot(v, r) = parity(v & r)`: the GF(2) inner product over all the bits of the word (R81, R97). -/
def dot {n : Nat} (v r : BitVec n) : Bool := parity (v &&& r)

/-- `zext_N(p)` of a single bit. -/
def zextBit (n : Nat) (p : Bool) : BitVec n := (BitVec.ofBool p).setWidth n

/-- `insert(a, p) = (a << 1) | zext(p)`: the top bit of a is lost without a signal (R82). -/
def shiftInsert {n : Nat} (a : BitVec n) (p : Bool) : BitVec n := (a <<< 1) ||| zextBit n p

/-- SYS_EN: W_I ≤ W_O, so that the vector can be widened into the output word (R7). -/
def sysEn (cfg : Config) : Bool := decide (cfg.vecBits ≤ cfg.accBits)

/-- `widen(v) = zext_WO(v)` (R15), used only where SYS_EN holds, and then exact (R63). -/
def widen (cfg : Config) (v : BitVec cfg.vecBits) : BitVec cfg.accBits := v.setWidth cfg.accBits

/-- A start command's register write: VEC takes the vector, ACC its initial value (R85, R86, R89). -/
def startFold {cfg : Config} (v : BitVec cfg.vecBits) (initial : BitVec cfg.accBits) : Regs cfg :=
  { vec := v, acc := initial }

/-- A ROW's register write: ACC shifts in the dot product, computed from the old values; VEC is unchanged (R87). -/
def foldRow {cfg : Config} (r : Regs cfg) (row : BitVec cfg.vecBits) : Regs cfg :=
  { r with acc := shiftInsert r.acc (dot r.vec row) }

/-- The state with its registers written, and nothing else changed (R98). -/
def State.withRegs (s : State) (r : Regs s.cfg) : State := { s with regs := r }

/-- The model's refusal of `sets` where SYS_EN is false (R111). -/
def refuseSets : Host.Outcome State Fault Refusal := .refused .setsNotInConfig

/-- The state with the model's refused mark set (R111). -/
def State.markRefused (s : State) : State := { s with refusedMark := true }

end Sys2Proof.Machine
end

