-- ==== Sys2Proof/Machine/Operands.lean ====
section
/-! DEFINITION. The one operand form of the block: the immediate data field of the command word (R63, R102). -/

namespace Sys2Proof.Machine

/-- The data field a command carries in configuration `cfg`: the low W_I bits of its operand, unsigned (R61, R63).
Of a well-formed command this drops nothing (log 7). -/
def dataField (cfg : Config) (d : Operand) : BitVec cfg.vecBits := d.setWidth cfg.vecBits

end Sys2Proof.Machine
end

