-- ==== Sys2Proof/Machine/Commands.lean ====
section
/-! DEFINITION. The meanings of the four commands (40_commands.md R84 to R87). -/

namespace Sys2Proof.Machine

/-- NOP: VEC and ACC keep their values; the data is ignored (R84). -/
def execNop (_data : Operand) (s : State) : Host.Outcome State Fault Refusal := .next s

/-- SETP: VEC takes the data, ACC becomes 0, in every configuration (R85). -/
def execSetp (v : Operand) (s : State) : Host.Outcome State Fault Refusal :=
  .next (s.withRegs (startFold (dataField s.cfg v) (0#s.cfg.accBits)))

/-- SETS: VEC takes the data, ACC the data widened; refused where SYS_EN is false (R86, R111). -/
def execSets (v : Operand) (s : State) : Host.Outcome State Fault Refusal :=
  if sysEn s.cfg then .next (s.withRegs (startFold (dataField s.cfg v) (widen s.cfg (dataField s.cfg v))))
  else refuseSets

/-- ROW: ACC shifts in the parity of VEC & data; VEC is unchanged (R87). -/
def execRow (r : Operand) (s : State) : Host.Outcome State Fault Refusal :=
  .next (s.withRegs (foldRow s.regs (dataField s.cfg r)))

end Sys2Proof.Machine
end

