-- ==== Sys2Proof/Machine/Dispatch.lean ====
section
/-! DEFINITION. The dispatch of R83: one arm per command. -/

namespace Sys2Proof.Machine

def exec (i : Instr) (s : State) : Host.Outcome State Fault Refusal :=
  match i with
  | .nop data => Sys2Proof.Machine.execNop data s
  | .setp v => Sys2Proof.Machine.execSetp v s
  | .sets v => Sys2Proof.Machine.execSets v s
  | .row r => Sys2Proof.Machine.execRow r s

end Sys2Proof.Machine
end

