-- ==== Sys2Proof/Machine/Ports.lean ====
section
/-! DEFINITION. The ports of the block (R60): the handshake (R134), the reset edge (R130) and the outputs (R135). -/

namespace Sys2Proof.Machine

/-- `cmd_ready`: 0 in every cycle in which `rst` is 1, and otherwise what READY_POLICY chooses (R9, R130). -/
def PortCycle.cmdReady {n : Nat} (c : PortCycle n) : Bool := !c.rst && c.readyChoice

/-- What the edge closing the cycle does: a reset takes precedence (R114, R130), a command is accepted exactly when
`rst` = 0, `cmd_valid` = 1 and `cmd_ready` = 1, and otherwise nothing is (R134). -/
def PortCycle.event {n : Nat} (c : PortCycle n) : EdgeEvent n :=
  if c.rst then .reset
  else if c.cmdValid && c.cmdReady then .accept c.cmdWord
  else .hold

/-- A cycle in which the host drives nothing and the block is ready, as the reference implementation is (R9).
It stands for every cycle after the listed ones. DESIGN CHOICE (log 4). -/
def PortCycle.idle (n : Nat) : PortCycle n :=
  { rst := false, cmdValid := false, cmdWord := 0#n, readyChoice := true }

/-- A cycle in which the host offers a word and the policy chooses `ready`. -/
def PortCycle.offer {n : Nat} (word : BitVec n) (ready : Bool) : PortCycle n :=
  { rst := false, cmdValid := true, cmdWord := word, readyChoice := ready }

/-- The current cycle, the one the next edge closes. -/
def State.currentCycle (s : State) : PortCycle s.cfg.cmdBits := s.cycles.headD (PortCycle.idle s.cfg.cmdBits)

/-- The state with the current cycle over and the registers held. -/
def State.endCycle (s : State) : State := { s with cycles := s.cycles.tail }

/-- The state after a reset edge: VEC <- 0, ACC <- 0 (R130); the refused mark is not the block's and is kept. -/
def State.resetEdge (s : State) : State := { s with regs := Regs.zero s.cfg, cycles := s.cycles.tail }

/-- `cmd_ready` in the current cycle (R60). -/
def State.cmdReady (s : State) : Bool := s.currentCycle.cmdReady

/-- `acc_q`, a registered copy of ACC: during a cycle it shows the state before the edge that closes it (R22, R135). -/
def State.accQ (s : State) : BitVec s.cfg.accBits := s.regs.acc

/-- `vec_q`, a registered copy of VEC (R21, R135). -/
def State.vecQ (s : State) : BitVec s.cfg.vecBits := s.regs.vec

/-- The state with one more cycle put first. -/
def State.withCycle (s : State) (c : PortCycle s.cfg.cmdBits) : State := { s with cycles := c :: s.cycles }

end Sys2Proof.Machine
end

