-- ==== Sys2Proof/Machine/Step.lean ====
section
/-! DEFINITION. One step: one rising edge of `clk` (R60, R130, R134; log 2). -/

namespace Sys2Proof.Machine

/-- One rising edge. From a state that carries the refused mark no step is made, whatever `rst` does (R111, R130).
Otherwise the edge resets, holds, or accepts the word on the port and runs the command it decodes to (R83, R134). -/
def step (s : State) : Host.Outcome State Fault Refusal :=
  if s.refusedMark then refuseSets
  else
    match s.currentCycle.event with
    | .reset => .next s.resetEdge
    | .hold => .next s.endCycle
    | .accept word => exec (decode s.cfg word) s.endCycle

/-- `s` with one cycle put first in which the host offers the table word and the block accepts it, so that the very
next step runs it (log 5). Its W_C wires carry the word's low W_C bits; all else stays. -/
def State.withFetchWord (s : State) (nbits w : Nat) : State :=
  s.withCycle (PortCycle.offer (BitVec.ofNat s.cfg.cmdBits (w % 2 ^ nbits)) true)

end Sys2Proof.Machine
end

