-- ==== Sys2Proof/Machine/Run.lean ====
section
/-! DEFINITION. Runs: command sequences (R47, R140), what a block does over a list of clock cycles as events, the
model's refused mark over a run (R111), and the source's two operations as functions (R88, R89). -/

namespace Sys2Proof.Machine

/-- The commands in acceptance order, each one atomic transition: `step(...step(s, c_1)..., c_k)` (R47). A run in which
some command is refused has no end state (R140). -/
def execAll : List Instr → State → Host.Outcome State Fault Refusal
  | [], s => .next s
  | i :: rest, s =>
    match exec i s with
    | .next s' => execAll rest s'
    | .fault f => .fault f
    | .refused r => .refused r

/-- What an agent outside can do to the block: reset it, or have a command accepted (R60, R130, R134). -/
inductive HostEvent where
  | reset
  | command (i : Instr)
  deriving DecidableEq, Repr

/-- The event of one cycle, if any (R130, R134). -/
def hostEvent (cfg : Config) (c : PortCycle cfg.cmdBits) : Option HostEvent :=
  match c.event with
  | .reset => some .reset
  | .hold => none
  | .accept word => some (.command (decode cfg word))

/-- The events of a list of cycles, in order: no waiting cycle leaves one. -/
def hostEvents (cfg : Config) (cs : List (PortCycle cfg.cmdBits)) : List HostEvent := cs.filterMap (hostEvent cfg)

/-- The state after a list of events, with no notion of time (R47, R139). -/
def execEvents : List HostEvent → State → Host.Outcome State Fault Refusal
  | [], s => .next s
  | .reset :: rest, s => execEvents rest (s.withRegs (Regs.zero s.cfg))
  | .command i :: rest, s =>
    match exec i s with
    | .next s' => execEvents rest s'
    | .fault f => .fault f
    | .refused r => .refused r

/-- One step of a run that keeps the whole state: a refusal sets the refused mark on it (R111). -/
def State.advance (s : State) : State :=
  match step s with
  | .next s' => s'
  | .fault f => nomatch f
  | .refused _ => s.markRefused

/-- The rows of a fold, in order (R87, R88). -/
def foldRows {cfg : Config} (r : Regs cfg) (rows : List (BitVec cfg.vecBits)) : Regs cfg := rows.foldl foldRow r

/-- `product(v, rows)`: ACC after `setp v` and the rows (R88). -/
def product (cfg : Config) (v : BitVec cfg.vecBits) (rows : List (BitVec cfg.vecBits)) : BitVec cfg.accBits :=
  (foldRows (startFold v (0#cfg.accBits)) rows).acc

/-- `systematic(v, rows)`: ACC after `sets v` and the rows, where SYS_EN holds (R89). -/
def systematic (cfg : Config) (v : BitVec cfg.vecBits) (rows : List (BitVec cfg.vecBits)) : BitVec cfg.accBits :=
  (foldRows (startFold v (widen cfg v)) rows).acc

/-- A W_I-bit value as a command's operand. -/
def operandOf {cfg : Config} (d : BitVec cfg.vecBits) : Operand := d.setWidth 128

end Sys2Proof.Machine
end

