-- ==== Sys2Proof/Machine/Pseudo.lean ====
section
/-! DEFINITION. The pseudo-instructions of the assembler (R68): each expands to ordinary commands. -/

namespace Sys2Proof.Machine

/-- A pseudo-instruction (R68). -/
inductive Pseudo where
  | product (v : Operand) (rows : List Operand)
  | systematic (v : Operand) (rows : List Operand)
  | dot (v r : Operand)
  | clr
  deriving DecidableEq, Repr

/-- The commands a pseudo-instruction stands for (R68). -/
def Pseudo.expand : Pseudo → List Instr
  | .product v rows => .setp v :: rows.map .row
  | .systematic v rows => .sets v :: rows.map .row
  | .dot v r => [.setp v, .row r]
  | .clr => [.setp 0#128]

end Sys2Proof.Machine
end

