-- ==== Sys2Proof/Machine/Assembler.lean ====
section
/-! DEFINITION. The assembler's text (30_encoding.md R67, R68; literals R13). A text is its list of characters.
What R67 leaves open (blanks, commas, the case of hexadecimal digits) is log 14. -/

namespace Sys2Proof.Machine

/-- Why a line is refused by the assembler. -/
inductive AsmError where
  | unknownMnemonic
  | missingOperand
  | extraOperand
  | badLiteral
  /-- A negative operand (R67). -/
  | negativeOperand
  /-- An operand whose value does not fit in W_I unsigned bits (R67). -/
  | operandTooWide
  deriving DecidableEq, Repr

/-- The value of one digit; both cases of a hexadecimal digit are read (log 14). -/
def digitValue (c : Char) : Option Nat :=
  if '0' ≤ c ∧ c ≤ '9' then some (c.toNat - '0'.toNat)
  else if 'a' ≤ c ∧ c ≤ 'f' then some (c.toNat - 'a'.toNat + 10)
  else if 'A' ≤ c ∧ c ≤ 'F' then some (c.toNat - 'A'.toNat + 10)
  else none

/-- The value of digits after those already read as `value`, most significant first. -/
def digitsValue (base : Nat) (value : Nat) : List Char → Except AsmError Nat
  | [] => .ok value
  | c :: rest =>
    match digitValue c with
    | some d => if d < base then digitsValue base (value * base + d) rest else .error .badLiteral
    | none => .error .badLiteral

/-- The value of a literal's digits, of which there is at least one. -/
def digits (base : Nat) : List Char → Except AsmError Nat
  | [] => .error .badLiteral
  | c :: rest => digitsValue base 0 (c :: rest)

/-- An unsigned literal: `0b` binary, `0x` hexadecimal, no prefix decimal (R13, R67). -/
def literalValue : List Char → Except AsmError Nat
  | '-' :: _ => .error .negativeOperand
  | '0' :: 'b' :: ds => digits 2 ds
  | '0' :: 'x' :: ds => digits 16 ds
  | ds => digits 10 ds

/-- One operand: a literal whose value fits in W_I unsigned bits (R67). -/
def operandValue (cfg : Config) (text : List Char) : Except AsmError Operand :=
  match literalValue text with
  | .ok n => if n < 2 ^ cfg.vecBits then .ok (BitVec.ofNat 128 n) else .error .operandTooWide
  | .error e => .error e

/-- The operands of a line, in order. -/
def operandValues (cfg : Config) : List (List Char) → Except AsmError (List Operand)
  | [] => .ok []
  | t :: rest =>
    match operandValue cfg t with
    | .error e => .error e
    | .ok d =>
      match operandValues cfg rest with
      | .error e => .error e
      | .ok ds => .ok (d :: ds)

/-- A blank between a line's parts (log 14). -/
def isBlank (c : Char) : Bool := c == ' ' || c == '\t' || c == '\r'

/-- The text without the blanks around it. -/
def trimBlanks (text : List Char) : List Char := ((text.dropWhile isBlank).reverse.dropWhile isBlank).reverse

/-- The parts of a text between the separators `sep`. -/
def splitOn (sep : Char) : List Char → List (List Char)
  | [] => [[]]
  | c :: rest =>
    if c = sep then [] :: splitOn sep rest
    else
      match splitOn sep rest with
      | [] => [[c]]
      | part :: parts => (c :: part) :: parts

/-- The mnemonic of a command as its characters (R64, R67). -/
def commandName : Instr → List Char
  | .nop _ => ['n', 'o', 'p']
  | .setp _ => ['s', 'e', 't', 'p']
  | .sets _ => ['s', 'e', 't', 's']
  | .row _ => ['r', 'o', 'w']

/-- The name of a pseudo-instruction as its characters (R68). -/
def pseudoName : Pseudo → List Char
  | .product _ _ => ['p', 'r', 'o', 'd', 'u', 'c', 't']
  | .systematic _ _ => ['s', 'y', 's', 't', 'e', 'm', 'a', 't', 'i', 'c']
  | .dot _ _ => ['d', 'o', 't']
  | .clr => ['c', 'l', 'r']

/-- The commands of a mnemonic with its operands (R67, R68): `nop`'s operand is optional and defaults to 0. -/
def commandsOf (name : List Char) (operands : List Operand) : Except AsmError (List Instr) :=
  if name = ['n', 'o', 'p'] then
    match operands with
    | [] => .ok [.nop 0#128]
    | [d] => .ok [.nop d]
    | _ => .error .extraOperand
  else if name = ['s', 'e', 't', 'p'] then
    match operands with
    | [] => .error .missingOperand
    | [d] => .ok [.setp d]
    | _ => .error .extraOperand
  else if name = ['s', 'e', 't', 's'] then
    match operands with
    | [] => .error .missingOperand
    | [d] => .ok [.sets d]
    | _ => .error .extraOperand
  else if name = ['r', 'o', 'w'] then
    match operands with
    | [] => .error .missingOperand
    | [d] => .ok [.row d]
    | _ => .error .extraOperand
  else if name = ['p', 'r', 'o', 'd', 'u', 'c', 't'] then
    match operands with
    | [] => .error .missingOperand
    | v :: rows => .ok (Pseudo.product v rows).expand
  else if name = ['s', 'y', 's', 't', 'e', 'm', 'a', 't', 'i', 'c'] then
    match operands with
    | [] => .error .missingOperand
    | v :: rows => .ok (Pseudo.systematic v rows).expand
  else if name = ['d', 'o', 't'] then
    match operands with
    | [v, r] => .ok (Pseudo.dot v r).expand
    | [] => .error .missingOperand
    | [_] => .error .missingOperand
    | _ => .error .extraOperand
  else if name = ['c', 'l', 'r'] then
    match operands with
    | [] => .ok Pseudo.clr.expand
    | _ => .error .extraOperand
  else .error .unknownMnemonic

/-- The operand texts of the part of a line after its mnemonic. -/
def operandTexts (text : List Char) : List (List Char) :=
  match trimBlanks text with
  | [] => []
  | c :: rest => (splitOn ',' (c :: rest)).map trimBlanks

/-- The commands of one line: `;` starts a comment that runs to the end of the line (R67). -/
def lineCommands (cfg : Config) (line : List Char) : Except AsmError (List Instr) :=
  match trimBlanks (line.takeWhile (· ≠ ';')) with
  | [] => .ok []
  | c :: rest =>
    match operandValues cfg (operandTexts ((c :: rest).dropWhile (fun x => !isBlank x))) with
    | .error e => .error e
    | .ok operands => commandsOf ((c :: rest).takeWhile (fun x => !isBlank x)) operands

/-- The words of one line, each `(operand << 2) | op` (R67). -/
def assembleLine (cfg : Config) (line : List Char) : Except AsmError (List (BitVec cfg.cmdBits)) :=
  match lineCommands cfg line with
  | .error e => .error e
  | .ok is => .ok (is.map (encode cfg))

/-- The words of the lines of a program, in order; the first refused line refuses it. -/
def assembleLines (cfg : Config) : List (List Char) → Except AsmError (List (BitVec cfg.cmdBits))
  | [] => .ok []
  | line :: rest =>
    match assembleLine cfg line with
    | .error e => .error e
    | .ok ws =>
      match assembleLines cfg rest with
      | .error e => .error e
      | .ok more => .ok (ws ++ more)

/-- The words of a source text, one command or pseudo-instruction per line (R67, R68). -/
def assemble (cfg : Config) (source : List Char) : Except AsmError (List (BitVec cfg.cmdBits)) :=
  assembleLines cfg (splitOn '\n' source)

/-- The `k` lowest bits of a value as binary digits, most significant first (R13). -/
def binaryDigits {n : Nat} (w : BitVec n) : Nat → List Char
  | 0 => []
  | k + 1 => (if w.getLsbD k then '1' else '0') :: binaryDigits w k

/-- A command as one line of source text, its operand a binary literal of W_I digits. -/
def sourceLine (cfg : Config) (i : Instr) : List Char :=
  commandName i ++ ' ' :: '0' :: 'b' :: binaryDigits i.data cfg.vecBits

end Sys2Proof.Machine
end

