-- ==== Sys2Proof/Machine/Blocks.lean ====
section
/-! DEFINITION. Several blocks in one system (R121): each has its own registers, ports and mark, and they share no
state. Which block's edge comes next is outside the blocks: it is an argument (log 16). -/

namespace Sys2Proof.Machine

/-- A system of blocks, the k-th at place k. -/
abbrev System : Type := List State

/-- One edge of the block at place `k`, and of no other. -/
def System.advanceAt (k : Nat) (sys : System) : System := sys.modify k State.advance

end Sys2Proof.Machine
end

