-- ==== Sys2Proof/Safety.lean ====
section
/-! DEFINITION. What a host must keep to, and what counts as a safe run (R111, R137, R138, R140), in the terms the
statements use. The block checks none of it. -/

namespace Sys2Proof.Safety

open Sys2Proof.Machine

/-- A command legal in a configuration: all but `sets` where SYS_EN is false (R66, R137 (g)). -/
def legalIn (cfg : Config) : Instr → Bool
  | .nop _ => true
  | .setp _ => true
  | .sets _ => sysEn cfg
  | .row _ => true

/-- A safe run: its `k` steps end in a state, so no command of it was refused (R140). -/
def SafeRun (k : Nat) (s : State) : Prop := ∃ s', core.run k s = .next s'

/-- A NOP. -/
def isNop : Instr → Bool
  | .nop _ => true
  | .setp _ => false
  | .sets _ => false
  | .row _ => false

/-- The commands issue exactly the given rows, in this order, with any number of NOPs between them (R88). -/
def IssuesRows {cfg : Config} (is : List Instr) (rows : List (BitVec cfg.vecBits)) : Prop :=
  is.filter (fun i => !isNop i) = rows.map (fun r => .row (operandOf r))

/-- READY_POLICY over the cycles in which `rst` is 0: weakly fair when it is ready again after every cycle (R138). -/
def WeaklyFair (policy : Nat → Bool) : Prop := ∀ k, ∃ n, policy (k + n) = true

/-- VEC = 0 only with ACC = 0, and no refused mark: a fold against the zero vector folds in zeros (R87, R133). -/
def ZeroVecHasZeroAcc (s : State) : Prop := s.refusedMark = false ∧ (s.regs.vec = 0#s.cfg.vecBits → s.regs.acc = 0#s.cfg.accBits)

/-- No set bit of a systematic fold is lost: v * 2^N < 2^W_O (R89, R137 (d)). -/
def FitsSystematic (cfg : Config) (v : BitVec cfg.vecBits) (n : Nat) : Prop := v.toNat * 2 ^ n < 2 ^ cfg.accBits

end Sys2Proof.Safety
end

