-- ==== Sys2Proof/Certificates/Slice0/Obligations.lean ====
section
/-! DEFINITION. The statements about GF2MVM for the provers. Each holds in every configuration and every state unless its
hypotheses say otherwise. W_I is `cfg.vecBits`, W_O is `cfg.accBits`, W_C is `cfg.cmdBits`. -/

open Sys2Proof Sys2Proof.Machine Sys2Proof.Safety

/-! Encoding. -/

/-- R64, R65: each of the 2^W_C command words selects exactly one row of the opcode table, and is decoded to the command
of that row's mnemonic. -/
def Obligations.EveryWordSelectsExactlyOneCommand : Prop :=
  opcodeTable.map (fun r => (r.mnemonic, r.mask, r.pattern)) =
      [("nop", 0x3, 0), ("setp", 0x3, 1), ("sets", 0x3, 2), ("row", 0x3, 3)] ∧
    ∀ (cfg : Config) (w : BitVec cfg.cmdBits),
      (opcodeTable.filter (fun r => r.selects w)).map (fun r => r.mnemonic) = [(decode cfg w).mnemonic]

/-- R8, R61, R63: W_C = W_I + 2; `op` is the word modulo 4 and `data` the word divided by 4, taken verbatim. -/
def Obligations.CommandFormatIsOpBelowData : Prop :=
  (∀ cfg : Config, cfg.cmdBits = cfg.vecBits + 2) ∧
    ([Width.w8, .w16, .w32, .w64, .w128].map fun w => Config.cmdBits ⟨w, .w8⟩) = [10, 18, 34, 66, 130] ∧
    ∀ (cfg : Config) (w : BitVec cfg.cmdBits),
      (decode cfg w).op.toNat = w.toNat % 4 ∧ (decode cfg w).data.toNat = w.toNat / 4 ∧
        (dataBits cfg w).toNat = w.toNat / 4

/-- Decode and encode agree on every well-formed command of every configuration (R61, R64, R67). -/
def Obligations.DecodeOfEncodeIsTheCommand : Prop :=
  ∀ (cfg : Config) (i : Instr), i.wellFormed cfg = true → decode cfg (encode cfg i) = i

/-- The other direction: every command word is the encoding of the well-formed command it decodes to (R61, R65). -/
def Obligations.EncodeOfDecodeIsTheWord : Prop :=
  ∀ (cfg : Config) (w : BitVec cfg.cmdBits), (decode cfg w).wellFormed cfg = true ∧ encode cfg (decode cfg w) = w

/-- R67: the encoded word is `(operand << 2) | op`, as a number. -/
def Obligations.EncodedWordIsOperandTimesFourPlusOp : Prop :=
  ∀ (cfg : Config) (i : Instr), i.wellFormed cfg = true → (encode cfg i).toNat = 4 * i.data.toNat + i.op.toNat

/-- R69: the worked encodings, W_I = 16, both ways. -/
def Obligations.WorkedEncodingsOfTheReferenceConfiguration : Prop :=
  encode Config.reference (.setp 0b1010) = 0x00029 ∧ decode Config.reference 0x00029 = .setp 0b1010 ∧
    encode Config.reference (.row 0b1111) = 0x0003F ∧ decode Config.reference 0x0003F = .row 0b1111 ∧
    encode Config.reference (.sets 0x7FD) = 0x01FF6 ∧ decode Config.reference 0x01FF6 = .sets 0x7FD ∧
    encode Config.reference (.nop 0) = 0x00000 ∧ decode Config.reference 0x00000 = .nop 0

/-- A number decodes to a command exactly when the command is well formed and encodes to that number; a number beyond the
W_C-bit word, and no other, is rejected by name (R43, R62, R65; the reading of a number is the model's, log 5). -/
def Obligations.ANumberDecodesToTheCommandItEncodes : Prop :=
  ∀ (cfg : Config) (n : Nat),
    (∀ i : Instr, decodeNumber cfg n = .ok i ↔ i.wellFormed cfg = true ∧ (encode cfg i).toNat = n) ∧
      (decodeNumber cfg n = .error .beyondCommandWord ↔ 2 ^ cfg.cmdBits ≤ n)

/-! The arithmetic of the commands. -/

/-- R81: `dot(v, r)` is the XOR of the products of the coordinates, is the count of the set bits of `v & r` modulo 2, and
depends only on `v & r`. -/
def Obligations.DotIsTheXorOfTheLaneProducts : Prop :=
  ∀ (n : Nat) (v r : BitVec n),
    dot v r = (List.range n).foldl (fun sum i => sum ^^ (v.getLsbD i && r.getLsbD i)) false ∧
      (dot v r).toNat = ((List.range n).filter fun i => (v &&& r).getLsbD i).length % 2 ∧
      ∀ v' r' : BitVec n, v &&& r = v' &&& r' → dot v r = dot v' r'

/-- R82: the three forms of shift-and-insert agree, at every legal width: `(a << 1) | zext(p)`, the concatenation of all
but the top bit of a with p, and `(2*a + p) mod 2^W_O`. -/
def Obligations.ShiftInsertFormsAgree : Prop :=
  ∀ (w : Width) (a : BitVec w.bits) (p : Bool),
    shiftInsert a p = a <<< 1 ||| (BitVec.ofBool p).setWidth w.bits ∧
      (shiftInsert a p).toNat = (a.extractLsb' 0 (w.bits - 1) ++ BitVec.ofBool p).toNat ∧
      (shiftInsert a p).toNat = (2 * a.toNat + p.toNat) % 2 ^ w.bits

/-- R97: a set bit of the vector at any position changes the dot product exactly when the row also has a 1 there, and
the bits at and above any M add their own dot product. -/
def Obligations.DotUsesTheFullWordWidth : Prop :=
  ∀ (n : Nat) (v r : BitVec n),
    (∀ k < n, v.getLsbD k = false → (dot (v ||| BitVec.twoPow n k) r ≠ dot v r ↔ r.getLsbD k = true)) ∧
      ∀ m ≤ n, dot v r = (dot ((v.setWidth m).setWidth n) r ^^ dot (v >>> m <<< m) r)

/-! The commands. -/

/-- R84: NOP keeps the whole state, from the constructor and from every word with `word & 0x3 = 0x0`, whatever its data;
a NOP between two ROWs does not change the result. -/
def Obligations.NopKeepsEveryState : Prop :=
  (∀ (s : State) (d : Operand), exec (.nop d) s = .next s) ∧
    (∀ (s : State) (w : BitVec s.cfg.cmdBits),
      w &&& BitVec.ofNat s.cfg.cmdBits 3 = BitVec.ofNat s.cfg.cmdBits 0 → exec (decode s.cfg w) s = .next s) ∧
    ∀ (s : State) (a b d : Operand), execAll [.row a, .nop d, .row b] s = execAll [.row a, .row b] s

/-- R85: SETP loads VEC with its data and ACC with 0 and changes nothing else, in every configuration, from the constructor
and from every word with `word & 0x3 = 0x1`; data 0 gives the registers of reset. -/
def Obligations.SetpStartsAProductFold : Prop :=
  (∀ (s : State) (d : Operand),
      exec (.setp d) s =
        .next { s with regs := { vec := d.setWidth s.cfg.vecBits, acc := BitVec.ofNat s.cfg.accBits 0 } }) ∧
    (∀ (s : State) (w : BitVec s.cfg.cmdBits),
      w &&& BitVec.ofNat s.cfg.cmdBits 3 = BitVec.ofNat s.cfg.cmdBits 1 →
        exec (decode s.cfg w) s =
          .next { s with
            regs := { vec := w.extractLsb' 2 s.cfg.vecBits, acc := BitVec.ofNat s.cfg.accBits 0 } }) ∧
    ∀ s : State, exec (.setp 0) s = .next { s with regs := (State.resetAt s.cfg).regs }

/-- R86 where W_I ≤ W_O: SETS loads VEC with its data and ACC with the zero-extended data, exactly, and changes nothing else,
from the constructor and from every word with `word & 0x3 = 0x2`; data 0 acts as SETP 0 does. -/
def Obligations.SetsStartsASystematicFold : Prop :=
  (∀ (s : State) (d : Operand), s.cfg.vecBits ≤ s.cfg.accBits →
      exec (.sets d) s =
        .next { s with
          regs := { vec := d.setWidth s.cfg.vecBits, acc := (d.setWidth s.cfg.vecBits).setWidth s.cfg.accBits } }) ∧
    (∀ (s : State) (w : BitVec s.cfg.cmdBits), s.cfg.vecBits ≤ s.cfg.accBits →
      w &&& BitVec.ofNat s.cfg.cmdBits 3 = BitVec.ofNat s.cfg.cmdBits 2 →
        ∃ acc : BitVec s.cfg.accBits,
          exec (decode s.cfg w) s = .next { s with regs := { vec := w.extractLsb' 2 s.cfg.vecBits, acc := acc } } ∧
            acc.toNat = (w.extractLsb' 2 s.cfg.vecBits).toNat) ∧
    ∀ s : State, s.cfg.vecBits ≤ s.cfg.accBits → exec (.sets 0) s = exec (.setp 0) s

/-- R7, R66: SYS_EN is true exactly when W_I ≤ W_O; where it is false SETS is refused as SETS_NOT_IN_CONFIG, whatever its data;
and a word has no meaning only then, and only with op = 10: where SYS_EN is true every word runs. -/
def Obligations.SetsIsRefusedExactlyWhereTheVectorIsWider : Prop :=
  (∀ cfg : Config, sysEn cfg = true ↔ cfg.vecBits ≤ cfg.accBits) ∧
    (∀ (s : State) (d : Operand), s.cfg.accBits < s.cfg.vecBits → exec (.sets d) s = .refused .setsNotInConfig) ∧
    ∀ (s : State) (w : BitVec s.cfg.cmdBits),
      (exec (decode s.cfg w) s = .refused .setsNotInConfig ↔ w.toNat % 4 = 2 ∧ s.cfg.accBits < s.cfg.vecBits) ∧
        ((∃ t, exec (decode s.cfg w) s = .next t) ↔ ¬ (w.toNat % 4 = 2 ∧ s.cfg.accBits < s.cfg.vecBits))

/-- R87: ROW gives ACC the value `(2*ACC + p) mod 2^W_O`, p the XOR over all W_I lanes of VEC & data, and changes nothing
else, from the constructor and from every word with `word & 0x3 = 0x3`. -/
def Obligations.RowFoldsOneRowIntoAcc : Prop :=
  (∀ (s : State) (d : Operand),
      exec (.row d) s =
        .next { s with
          regs := { s.regs with
            acc := BitVec.ofNat s.cfg.accBits (2 * s.regs.acc.toNat +
              ((List.range s.cfg.vecBits).foldl (fun p i => p ^^ (s.regs.vec.getLsbD i && d.getLsbD i))
                false).toNat) } }) ∧
    ∀ (s : State) (w : BitVec s.cfg.cmdBits),
      w &&& BitVec.ofNat s.cfg.cmdBits 3 = BitVec.ofNat s.cfg.cmdBits 3 →
        exec (decode s.cfg w) s =
          .next { s with
            regs := { s.regs with
              acc := BitVec.ofNat s.cfg.accBits (2 * s.regs.acc.toNat +
                ((List.range s.cfg.vecBits).foldl (fun p i => p ^^ (s.regs.vec.getLsbD i && w.getLsbD (i + 2)))
                  false).toNat) } }

/-- The corner cases of R87: a zero row or a zero vector folds in 0; so does a row equal to a vector of even popcount; so
do all ones on all ones; right after reset a ROW leaves the state of reset; right after SETP, and right after SETS where
W_I ≤ W_O, it uses the vector and the ACC that command wrote. -/
def Obligations.RowCornerCases : Prop :=
  (∀ s : State, exec (.row 0) s = .next { s with regs := { s.regs with acc := s.regs.acc <<< 1 } }) ∧
    (∀ (s : State) (d : Operand), s.regs.vec = BitVec.ofNat s.cfg.vecBits 0 →
      exec (.row d) s = .next { s with regs := { s.regs with acc := s.regs.acc <<< 1 } }) ∧
    (∀ s : State, ((List.range s.cfg.vecBits).filter fun i => s.regs.vec.getLsbD i).length % 2 = 0 →
      exec (.row (operandOf s.regs.vec)) s = .next { s with regs := { s.regs with acc := s.regs.acc <<< 1 } }) ∧
    (∀ s : State, s.regs.vec = BitVec.allOnes s.cfg.vecBits →
      exec (.row (operandOf (BitVec.allOnes s.cfg.vecBits))) s =
        .next { s with regs := { s.regs with acc := s.regs.acc <<< 1 } }) ∧
    (∀ (cfg : Config) (d : Operand), exec (.row d) (State.resetAt cfg) = .next (State.resetAt cfg)) ∧
    ∀ (s : State) (v r : BitVec s.cfg.vecBits),
      execAll [.setp (operandOf v), .row (operandOf r)] s =
          .next { s with regs := { vec := v, acc := BitVec.ofNat s.cfg.accBits (dot v r).toNat } } ∧
        (s.cfg.vecBits ≤ s.cfg.accBits →
          execAll [.sets (operandOf v), .row (operandOf r)] s =
            .next { s with
              regs := { vec := v, acc := BitVec.ofNat s.cfg.accBits (2 * v.toNat + (dot v r).toNat) } })

/-- R98: a command's outcome is a function of its operand, the configuration and the two registers alone, and its next state
differs from the state before in the two registers at most. -/
def Obligations.CommandsReadAndWriteOnlyVecAndAcc : Prop :=
  ∀ (cfg : Config) (i : Instr), ∃ f : Regs cfg → Option (Regs cfg),
    ∀ (r : Regs cfg) (mark : Bool) (cs : List (PortCycle cfg.cmdBits)),
      exec i { cfg := cfg, regs := r, refusedMark := mark, cycles := cs } =
        match f r with
        | some r' => .next { cfg := cfg, regs := r', refusedMark := mark, cycles := cs }
        | none => .refused .setsNotInConfig

/-- R110: no command faults; every command on every data value in every state answers a next state, except the refused
SETS; and no step faults. -/
def Obligations.EveryCommandCompletesButTheRefusedSets : Prop :=
  (∀ (i : Instr) (s : State),
      (∃ t, exec i s = .next t) ∨
        (exec i s = .refused .setsNotInConfig ∧ i.op = 0b10 ∧ s.cfg.accBits < s.cfg.vecBits)) ∧
    (∀ (i : Instr) (s : State) (f : Fault), exec i s ≠ .fault f) ∧ ∀ (s : State) (f : Fault), step s ≠ .fault f

/-- R21, R30's frame over a fold: rows and NOPs in any number complete and leave VEC, the configuration, the mark and the ports
as they were: a fold sees one fixed vector. -/
def Obligations.AFoldSeesOneFixedVector : Prop :=
  ∀ (s : State) (is : List Instr), (∀ i ∈ is, i.op = 0b00 ∨ i.op = 0b11) →
    ∃ acc : BitVec s.cfg.accBits, execAll is s = .next { s with regs := { s.regs with acc := acc } }

/-- R44: the same SETP or the same SETS twice in a row leaves what one leaves; NOP has no effect; each ROW shifts ACC, so
that one ROW more doubles ACC, bit 0 apart. -/
def Obligations.StartCommandsAreIdempotentAndRowIsNot : Prop :=
  (∀ (s : State) (d : Operand), execAll [.setp d, .setp d] s = exec (.setp d) s) ∧
    (∀ (s : State) (d : Operand), execAll [.sets d, .sets d] s = exec (.sets d) s) ∧
    (∀ (s : State) (d e : Operand), execAll [.nop d, .nop e] s = .next s) ∧
    (∀ (s t : State) (d : Operand), execAll [.row d, .row d] s = .next t →
      t.regs.acc.toNat / 4 = s.regs.acc.toNat % 2 ^ (s.cfg.accBits - 2)) ∧
    ∀ cfg : Config, ∃ (r : Regs cfg) (d : Operand),
      execAll [.row d, .row d] { State.resetAt cfg with regs := r } ≠ exec (.row d) { State.resetAt cfg with regs := r }

/-! The composite operations and their laws. -/

/-- R88: after `setp v` and the rows in order, with any NOPs between them, ACC is the sum of `p_j * 2^(N-1-j)` modulo 2^W_O,
and VEC is v. -/
def Obligations.ProductIsTheMsbFirstSumOfDots : Prop :=
  ∀ (s : State) (v : BitVec s.cfg.vecBits) (rows : List (BitVec s.cfg.vecBits)) (is : List Instr), IssuesRows is rows →
    execAll (.setp (operandOf v) :: is) s =
      .next { s with
        regs :=
          { vec := v,
            acc := BitVec.ofNat s.cfg.accBits
              (∑ j : Fin rows.length, (dot v rows[j]).toNat * 2 ^ (rows.length - 1 - j.val)) } }

/-- R89: where SYS_EN holds, after `sets v` and the rows, ACC is `v * 2^N` plus that sum, modulo 2^W_O; the layout is lossless
when `v * 2^N < 2^W_O`. -/
def Obligations.SystematicIsTheVectorAboveTheDots : Prop :=
  ∀ (s : State) (v : BitVec s.cfg.vecBits) (rows : List (BitVec s.cfg.vecBits)) (is : List Instr),
    s.cfg.vecBits ≤ s.cfg.accBits → IssuesRows is rows →
      ∃ acc : BitVec s.cfg.accBits,
        execAll (.sets (operandOf v) :: is) s = .next { s with regs := { vec := v, acc := acc } } ∧
          acc.toNat =
            (v.toNat * 2 ^ rows.length +
              ∑ j : Fin rows.length, (dot v rows[j]).toNat * 2 ^ (rows.length - 1 - j.val)) % 2 ^ s.cfg.accBits ∧
          (FitsSystematic s.cfg v rows.length →
            acc.toNat =
              v.toNat * 2 ^ rows.length +
                ∑ j : Fin rows.length, (dot v rows[j]).toNat * 2 ^ (rows.length - 1 - j.val))

/-- R68: the pseudo-instructions expand as its table says, and their expansions run to the results it gives. -/
def Obligations.PseudoInstructionsRunToTheirResults : Prop :=
  (∀ (v : Operand) (rows : List Operand),
      (Pseudo.product v rows).expand = .setp v :: rows.map .row ∧
        (Pseudo.systematic v rows).expand = .sets v :: rows.map .row) ∧
    (∀ v r : Operand, (Pseudo.dot v r).expand = [.setp v, .row r]) ∧ Pseudo.clr.expand = [.setp 0] ∧
    (∀ (s : State) (v : BitVec s.cfg.vecBits) (rows : List (BitVec s.cfg.vecBits)),
      execAll (Pseudo.product (operandOf v) (rows.map operandOf)).expand s =
          .next { s with regs := { vec := v, acc := product s.cfg v rows } } ∧
        (s.cfg.vecBits ≤ s.cfg.accBits →
          execAll (Pseudo.systematic (operandOf v) (rows.map operandOf)).expand s =
            .next { s with regs := { vec := v, acc := systematic s.cfg v rows } })) ∧
    (∀ (s : State) (v r : BitVec s.cfg.vecBits),
      execAll (Pseudo.dot (operandOf v) (operandOf r)).expand s =
        .next { s with regs := { vec := v, acc := BitVec.ofNat s.cfg.accBits (dot v r).toNat } }) ∧
    ∀ s : State,
      execAll Pseudo.clr.expand s =
        .next { s with regs := { vec := BitVec.ofNat s.cfg.vecBits 0, acc := BitVec.ofNat s.cfg.accBits 0 } }

/-- R90: with no rows, product is 0 and systematic is the widened vector; the start command alone leaves them in ACC. -/
def Obligations.EmptyRowSequences : Prop :=
  ∀ (cfg : Config) (v : BitVec cfg.vecBits),
    product cfg v [] = BitVec.ofNat cfg.accBits 0 ∧
      (cfg.vecBits ≤ cfg.accBits → systematic cfg v [] = v.setWidth cfg.accBits ∧ (systematic cfg v []).toNat = v.toNat)

/-- R91: bit i of product is the dot product with row N-1-i for i < N, and 0 above; so row j lands at bit N-1-j. In systematic
mode bit i is v[i-N] for N ≤ i, and 0 above that. -/
def Obligations.RowsLandMsbFirst : Prop :=
  ∀ (cfg : Config) (v : BitVec cfg.vecBits) (rows : List (BitVec cfg.vecBits)),
    (∀ i : Nat, i < rows.length → i < cfg.accBits →
      ∃ r, rows[rows.length - 1 - i]? = some r ∧ (product cfg v rows).getLsbD i = dot v r) ∧
    (∀ (j : Nat) (h : j < rows.length), rows.length - 1 - j < cfg.accBits →
      (product cfg v rows).getLsbD (rows.length - 1 - j) = dot v rows[j]) ∧
    (∀ i : Nat, rows.length ≤ i → i < cfg.accBits → (product cfg v rows).getLsbD i = false) ∧
    (cfg.vecBits ≤ cfg.accBits → ∀ i : Nat, rows.length ≤ i → i < cfg.accBits →
      (systematic cfg v rows).getLsbD i = if i - rows.length < cfg.vecBits then v.getLsbD (i - rows.length) else false)

/-- R92: systematic is `((v * 2^N) mod 2^W_O) | product`, the two with disjoint bits so that `|` is `+`; for
N ≤ W_O - W_I the first is the widened vector shifted left by N. -/
def Obligations.SystematicIdentity : Prop :=
  ∀ (cfg : Config) (v : BitVec cfg.vecBits) (rows : List (BitVec cfg.vecBits)), cfg.vecBits ≤ cfg.accBits →
    systematic cfg v rows = (BitVec.ofNat cfg.accBits (v.toNat * 2 ^ rows.length) ||| product cfg v rows) ∧
      (BitVec.ofNat cfg.accBits (v.toNat * 2 ^ rows.length) &&& product cfg v rows) = BitVec.ofNat cfg.accBits 0 ∧
      systematic cfg v rows = BitVec.ofNat cfg.accBits (v.toNat * 2 ^ rows.length) + product cfg v rows ∧
      (rows.length ≤ cfg.accBits - cfg.vecBits →
        systematic cfg v rows = (v.setWidth cfg.accBits <<< rows.length ||| product cfg v rows))

/-- R93: product and systematic are linear in the vector over GF(2). -/
def Obligations.CompositeOperationsAreLinear : Prop :=
  ∀ (cfg : Config) (v1 v2 : BitVec cfg.vecBits) (rows : List (BitVec cfg.vecBits)),
    product cfg (v1 ^^^ v2) rows = product cfg v1 rows ^^^ product cfg v2 rows ∧
      (cfg.vecBits ≤ cfg.accBits →
        systematic cfg (v1 ^^^ v2) rows = systematic cfg v1 rows ^^^ systematic cfg v2 rows)

/-- R94: permuting at most W_O rows permutes the result bits identically. -/
def Obligations.PermutedRowsPermuteTheResultBits : Prop :=
  ∀ (cfg : Config) (v : BitVec cfg.vecBits) (n : Nat) (rows : Fin n → BitVec cfg.vecBits) (perm : Equiv.Perm (Fin n)),
    n ≤ cfg.accBits → ∀ j : Fin n,
      (product cfg v (List.ofFn fun k => rows (perm k))).getLsbD (n - 1 - j.val) =
        (product cfg v (List.ofFn rows)).getLsbD (n - 1 - (perm j).val)

/-- R95: with N > W_O rows, product is that of the last W_O rows, the first of those at bit W_O-1. -/
def Obligations.ProductKeepsTheLastRows : Prop :=
  ∀ (cfg : Config) (v : BitVec cfg.vecBits) (rows : List (BitVec cfg.vecBits)), cfg.accBits < rows.length →
    product cfg v rows = product cfg v (rows.drop (rows.length - cfg.accBits)) ∧
      (∃ r, rows[rows.length - cfg.accBits]? = some r ∧
        (product cfg v rows).getLsbD (cfg.accBits - 1) = dot v r) ∧
      ∀ k < cfg.accBits, ∃ r, rows[rows.length - 1 - k]? = some r ∧ (product cfg v rows).getLsbD k = dot v r

/-- R96: after N ROWs bit k of the initial ACC is at k+N when that is below W_O and has no influence otherwise; the n-th ROW
shifts out bit W_O-n of the initial ACC; no parity bit is lost while N ≤ W_O; and the result differs from the lossless
layout exactly when a lost bit was 1. -/
def Obligations.SystematicLosesVectorBitsFirst : Prop :=
  ∀ (cfg : Config) (v : BitVec cfg.vecBits) (rows : List (BitVec cfg.vecBits)), cfg.vecBits ≤ cfg.accBits →
    (∀ k < cfg.vecBits, k + rows.length < cfg.accBits →
      (systematic cfg v rows).getLsbD (k + rows.length) = v.getLsbD k) ∧
    (∀ k : Nat, cfg.accBits ≤ k + rows.length →
      (foldRows (startFold v (widen cfg v ^^^ BitVec.twoPow cfg.accBits k)) rows).acc = systematic cfg v rows) ∧
    (∀ n : Nat, 1 ≤ n → n ≤ cfg.accBits → n ≤ rows.length →
      (systematic cfg v (rows.take (n - 1))).getLsbD (cfg.accBits - 1) =
        if cfg.accBits - n < cfg.vecBits then v.getLsbD (cfg.accBits - n) else false) ∧
    (rows.length ≤ cfg.accBits → ∀ (j : Nat) (h : j < rows.length),
      (systematic cfg v rows).getLsbD (rows.length - 1 - j) = dot v rows[j]) ∧
    ((systematic cfg v rows).toNat ≠
        v.toNat * 2 ^ rows.length +
          ∑ j : Fin rows.length, (dot v rows[j]).toNat * 2 ^ (rows.length - 1 - j.val) ↔
      (∃ k < cfg.vecBits, cfg.accBits ≤ k + rows.length ∧ v.getLsbD k = true) ∨
        ∃ j : Fin rows.length, cfg.accBits ≤ rows.length - 1 - j.val ∧ dot v rows[j] = true)

/-- The rows of one product may be split between two blocks: the results put side by side are the whole (R121, R91). -/
def Obligations.ProductOfSplitRows : Prop :=
  ∀ (cfg : Config) (v : BitVec cfg.vecBits) (rows more : List (BitVec cfg.vecBits)),
    product cfg v (rows ++ more) = (product cfg v rows <<< more.length ||| product cfg v more)

/-- What a fold leaves does not depend on the commands before its start command, another caller's fold among them (R85,
R86, R122, R133). -/
def Obligations.AStartCommandDiscardsTheFoldInProgress : Prop :=
  ∀ (s t : State) (before : List Instr) (v : BitVec s.cfg.vecBits) (rows : List (BitVec s.cfg.vecBits)),
    execAll before s = .next t →
      execAll (before ++ (Pseudo.product (operandOf v) (rows.map operandOf)).expand) s =
          .next { s with regs := { vec := v, acc := product s.cfg v rows } } ∧
        (s.cfg.vecBits ≤ s.cfg.accBits →
          execAll (before ++ (Pseudo.systematic (operandOf v) (rows.map operandOf)).expand) s =
            .next { s with regs := { vec := v, acc := systematic s.cfg v rows } })

/-- ROWs issued straight after reset, in any number, leave the state of reset (R133). -/
def Obligations.RowsRightAfterResetChangeNothing : Prop :=
  ∀ (cfg : Config) (rows : List Operand), execAll (rows.map .row) (State.resetAt cfg) = .next (State.resetAt cfg)

/-! Reset, ports and steps. -/

/-- R30: after reset VEC, ACC and the outputs that show them are 0, in every configuration; `cmd_ready` is 0 while `rst` is
high and then as the policy chooses; and these are the registers `setp 0` leaves. -/
def Obligations.ResetLeavesZeroInEveryRegister : Prop :=
  ∀ cfg : Config,
      ((State.resetAt cfg).cfg = cfg ∧ (State.resetAt cfg).regs.vec.toNat = 0 ∧ (State.resetAt cfg).regs.acc.toNat = 0 ∧
        (State.resetAt cfg).accQ.toNat = 0 ∧ (State.resetAt cfg).vecQ.toNat = 0) ∧
      (∀ c : PortCycle cfg.cmdBits, c.cmdReady = if c.rst then false else c.readyChoice) ∧
      ∀ (r : Regs cfg) (mark : Bool) (cs : List (PortCycle cfg.cmdBits)),
        exec (.setp 0) { cfg := cfg, regs := r, refusedMark := mark, cycles := cs } =
          .next { cfg := cfg, regs := (State.resetAt cfg).regs, refusedMark := mark, cycles := cs }

/-- R114, R130: at an edge where `rst` is 1 the registers become 0 from every state, whatever they held (the unspecified
contents of a block never reset among them, R132) and whatever the host offers; no command is accepted and `cmd_ready` is
0; and a reset does not clear the model's refused mark. -/
def Obligations.AResetEdgeZeroesTheRegisters : Prop :=
  ∀ (s : State) (c : PortCycle s.cfg.cmdBits), c.rst = true →
    (s.refusedMark = false →
      step (s.withCycle c) =
        .next { s with regs := { vec := BitVec.ofNat s.cfg.vecBits 0, acc := BitVec.ofNat s.cfg.accBits 0 } }) ∧
      c.event = .reset ∧ (s.withCycle c).cmdReady = false ∧
      (s.refusedMark = true → (s.withCycle c).advance.refusedMark = true)

/-- R134: a word is accepted at an edge exactly when `rst` = 0, `cmd_valid` = 1 and `cmd_ready` = 1, and then the step is the
command that word decodes to; with `rst` = 0 and no acceptance the state is unchanged, the cycle over. -/
def Obligations.AStepRunsTheAcceptedCommand : Prop :=
  ∀ (s : State) (c : PortCycle s.cfg.cmdBits), s.refusedMark = false →
    ((∃ w, c.event = .accept w) ↔ c.rst = false ∧ c.cmdValid = true ∧ (s.withCycle c).cmdReady = true) ∧
      (c.rst = false → c.cmdValid = true → (s.withCycle c).cmdReady = true →
        step (s.withCycle c) = exec (decode s.cfg c.cmdWord) s) ∧
      (c.rst = false → c.cmdValid = false ∨ (s.withCycle c).cmdReady = false → step (s.withCycle c) = .next s)

/-- A step runs the decoded instruction: where the host offers the word of a well-formed command and the block accepts it,
the step is exec of that command (R83, R134). -/
def Obligations.AStepRunsTheEncodedCommand : Prop :=
  ∀ (s : State) (i : Instr), s.refusedMark = false → i.wellFormed s.cfg = true →
    step (s.withCycle (PortCycle.offer (encode s.cfg i) true)) = exec i s

/-- With no cycle listed the step changes nothing (the model's choice, log 4; R124: the registers hold while no command is
accepted). -/
def Obligations.AnIdleStepChangesNothing : Prop :=
  ∀ s : State, s.refusedMark = false → s.cycles = [] → step s = .next s

/-- How the host places an instruction: the word decodeTableWord reads is the one the next step from reset runs
(the model's choice, log 5). -/
def Obligations.AFetchedTableWordRunsNext : Prop :=
  (∀ (nbits w : Nat) (i : Instr), decodeTableWord nbits w = some i →
      step (State.reset.withFetchWord nbits w) = exec i State.reset) ∧
    ∀ (s : State) (nbits w : Nat), s.refusedMark = false →
      step (s.withFetchWord nbits w) = exec (decode s.cfg (BitVec.ofNat s.cfg.cmdBits (w % 2 ^ nbits))) s

/-- R135: the outputs show VEC and ACC as they were before the edge in the cycle that offers a command, as they are after
it in the next, and the same in every waiting cycle until the next acceptance or reset. -/
def Obligations.OutputsShowTheStateBeforeTheClosingEdge : Prop :=
  (∀ (s : State) (w : BitVec s.cfg.cmdBits) (r : Regs s.cfg), s.refusedMark = false →
      exec (decode s.cfg w) s = .next (s.withRegs r) →
        ((s.withCycle (PortCycle.offer w true)).accQ = s.regs.acc ∧
          (s.withCycle (PortCycle.offer w true)).vecQ = s.regs.vec) ∧
        step (s.withCycle (PortCycle.offer w true)) = .next (s.withRegs r) ∧
        (s.withRegs r).accQ = r.acc ∧ (s.withRegs r).vecQ = r.vec) ∧
    ∀ (s : State) (waiting : List (PortCycle s.cfg.cmdBits)), s.refusedMark = false → (∀ c ∈ waiting, c.event = .hold) →
      core.run waiting.length { s with cycles := waiting ++ s.cycles } = .next s

/-- R111: a refusal is SETS_NOT_IN_CONFIG; it sets the refused mark on the whole state; from a marked state no step is
made, whatever the ports do (a reset included), and the mark is never cleared. -/
def Obligations.ARefusedRunIsNeverResumed : Prop :=
  (∀ (s : State) (r : Refusal), step s = .refused r →
      r = .setsNotInConfig ∧ s.advance = { s with refusedMark := true }) ∧
    ∀ s : State, s.refusedMark = true → ∀ k : Nat,
      (State.advance^[k]) s = s ∧ core.run (k + 1) s = .refused .setsNotInConfig

/-- R138 with R134: under every weakly fair policy, a command the host keeps offering from cycle k on is accepted after
finitely many cycles, and until then the registers hold. -/
def Obligations.AnOfferedCommandIsEventuallyAccepted : Prop :=
  ∀ (policy : Nat → Bool), WeaklyFair policy → ∀ (k : Nat) (s : State) (w : BitVec s.cfg.cmdBits), s.refusedMark = false →
    ∃ n : Nat,
      core.run (n + 1)
          { s with cycles := (List.range (n + 1)).map fun j => PortCycle.offer w (policy (k + j)) } =
        exec (decode s.cfg w) { s with cycles := [] } ∧
      ∀ m ≤ n, ∃ later : List (PortCycle s.cfg.cmdBits),
        core.run m { s with cycles := (List.range (n + 1)).map fun j => PortCycle.offer w (policy (k + j)) } =
          .next { s with cycles := later }

/-! Whole-machine statements. -/

/-- R26: no step changes the configuration; a step that answers a next state leaves no refused mark (R111); and it ends one
listed cycle, if there is one (the last clause is the model's choice, log 2: a step is one clock edge). -/
def Obligations.NoStepChangesTheConfiguration : Prop :=
  ∀ s t : State, step s = .next t → t.cfg = s.cfg ∧ t.refusedMark = false ∧ t.cycles.length = s.cycles.length - 1

/-- Every step from a state where VEC = 0 only with ACC = 0 (and no mark) leads to such a state (R85 to R87, R130). -/
def Obligations.EveryStepKeepsZeroVecWithZeroAcc : Prop :=
  ∀ s t : State, ZeroVecHasZeroAcc s → step s = .next t → ZeroVecHasZeroAcc t

/-- The base case of the invariant above: the state of reset meets it, in every configuration, and its VEC and its ACC are both
0 (R30). State.reset is that state in the reference configuration, which is the model's choice (log 1). -/
def Obligations.ResetHasZeroVecWithZeroAcc : Prop :=
  (ZeroVecHasZeroAcc State.reset ∧ State.reset.regs.vec.toNat = 0 ∧ State.reset.regs.acc.toNat = 0) ∧
    ∀ cfg : Config,
      ZeroVecHasZeroAcc (State.resetAt cfg) ∧ (State.resetAt cfg).regs.vec = BitVec.ofNat cfg.vecBits 0 ∧
        (State.resetAt cfg).regs.acc = BitVec.ofNat cfg.accBits 0

/-- R47, R134, R139: the clocked block refines the command order. From every unmarked state, the steps over all its listed
cycles end as the accepted commands and resets do, taken in order with no notion of time: none is reordered, merged,
dropped or repeated. That a step is one clock edge, its cycle listed in State, is the model's choice (log 2). -/
def Obligations.TheClockedBlockFollowsTheAcceptedCommands : Prop :=
  ∀ s : State, s.refusedMark = false →
    core.run s.cycles.length s = execEvents (hostEvents s.cfg s.cycles) { s with cycles := [] }

/-- R111, R137 (g), R140: the run over all the listed cycles is safe exactly when every command they accept is legal in the
configuration. A run that goes on past them is then safe too: this clause rests on the model's choice that nothing is
offered after the listed cycles (log 4). -/
def Obligations.RunsAreSafeExactlyWithLegalCommands : Prop :=
  ∀ s : State, s.refusedMark = false →
    (SafeRun s.cycles.length s ↔
      ∀ c ∈ s.cycles, ∀ w : BitVec s.cfg.cmdBits, c.event = .accept w → legalIn s.cfg (decode s.cfg w) = true) ∧
    (SafeRun s.cycles.length s → ∀ k : Nat, SafeRun k s)

/-- R110, R112: a sequence of legal commands in any number runs to an end, from every state, and changes the two registers at
most: no row count and no vector width stops it. -/
def Obligations.LegalCommandsRunToAnEnd : Prop :=
  ∀ (s : State) (is : List Instr), (∀ i ∈ is, legalIn s.cfg i = true) →
    ∃ r : Regs s.cfg, execAll is s = .next { s with regs := r }

/-- R121: blocks share no state. An edge of one leaves every other as it was and gives that one the state its own step
answers, or its refused mark; and edges of two different blocks may come in either order. That a system is a list of
blocks, one edge of one block at a time, of which the others go on after a refusal, is the model's choice (log 16). -/
def Obligations.BlocksAreIndependent : Prop :=
  ∀ (sys : System) (k j : Nat), k ≠ j →
    (System.advanceAt k sys)[j]? = sys[j]? ∧ (System.advanceAt k sys)[k]? = sys[k]?.map State.advance ∧
      (System.advanceAt k sys).length = sys.length ∧
      System.advanceAt k (System.advanceAt j sys) = System.advanceAt j (System.advanceAt k sys) ∧
      (∀ s t : State, sys[k]? = some s → step s = .next t → (System.advanceAt k sys)[k]? = some t) ∧
      ∀ (s : State) (r : Refusal), sys[k]? = some s → step s = .refused r →
        (System.advanceAt k sys)[k]? = some { s with refusedMark := true }

/-! The assembler's text. What R67 leaves open of it is the model's choice (log 14). -/

/-- R13, R67: the three forms of a literal, each with at least one digit, most significant first, leading zeros allowed:
`0b` binary, `0x` hexadecimal, no prefix decimal. That a hexadecimal digit may be in either case is the model's choice
(log 14). `Nat.digitChar d` is the character of the digit d. -/
def Obligations.LiteralsAreReadInTheirThreeForms : Prop :=
  (∀ ds : List Nat, ds ≠ [] → (∀ d ∈ ds, d < 2) →
      literalValue ('0' :: 'b' :: ds.map Nat.digitChar) = .ok (Nat.ofDigits 2 ds.reverse)) ∧
    (∀ ds : List Nat, ds ≠ [] → (∀ d ∈ ds, d < 10) →
      literalValue (ds.map Nat.digitChar) = .ok (Nat.ofDigits 10 ds.reverse)) ∧
    ∀ (cs : List Char) (ds : List Nat), ds ≠ [] →
      List.Forall₂ (fun c d => d < 16 ∧ (c = Nat.digitChar d ∨ c = (Nat.digitChar d).toUpper)) cs ds →
        literalValue ('0' :: 'x' :: cs) = .ok (Nat.ofDigits 16 ds.reverse)

/-- R67: a line of a mnemonic, a space and a literal of any form assembles to its one word `(operand << 2) | op`; a line whose
literal does not fit in W_I bits is refused, and so is one whose literal has a minus sign. The last three clauses say it
of the canonical source line and of one operand; the form of sourceLine, and that any text after a minus sign is named a
negative operand, are the model's choice (log 14). -/
def Obligations.ASourceLineAssemblesToItsWord : Prop :=
  (∀ i : Instr, String.ofList (commandName i) = i.mnemonic) ∧
    ∀ cfg : Config,
    (∀ (i : Instr) (text : List Char), literalValue text = .ok i.data.toNat → i.data.toNat < 2 ^ cfg.vecBits →
        assembleLine cfg (commandName i ++ ' ' :: text) = .ok [encode cfg i] ∧
          (encode cfg i).toNat = 4 * i.data.toNat + i.op.toNat) ∧
      (∀ (i : Instr) (text : List Char) (n : Nat), literalValue text = .ok n → 2 ^ cfg.vecBits ≤ n →
        assembleLine cfg (commandName i ++ ' ' :: text) = .error .operandTooWide) ∧
      (∀ (i : Instr) (text : List Char) (n : Nat), literalValue text = .ok n →
        assembleLine cfg (commandName i ++ ' ' :: '-' :: text) = .error .negativeOperand) ∧
      (∀ i : Instr, i.wellFormed cfg = true → assembleLine cfg (sourceLine cfg i) = .ok [encode cfg i]) ∧
      (∀ (text : List Char) (n : Nat), literalValue text = .ok n → 2 ^ cfg.vecBits ≤ n →
        operandValue cfg text = .error .operandTooWide) ∧
      ∀ text : List Char, operandValue cfg ('-' :: text) = .error .negativeOperand

/-- R67: `;` starts a comment that runs to the end of the line; `nop` without an operand is `nop 0`; `setp`, `sets` and
`row` without their operand are refused. Each of these may stand before a comment. That a line without a command
stands for none is the model's choice (log 14). -/
def Obligations.CommentsAndOperandsLeftOut : Prop :=
  ∀ cfg : Config,
    (∀ line comment : List Char, assembleLine cfg (line ++ ';' :: comment) = assembleLine cfg line) ∧
      (∀ d : Operand, assembleLine cfg (commandName (.nop d)) = .ok [encode cfg (.nop 0)]) ∧
      (∀ (d : Operand) (comment : List Char),
        assembleLine cfg (commandName (.nop d) ++ ' ' :: ';' :: comment) = .ok [encode cfg (.nop 0)]) ∧
      (∀ i : Instr, i.op ≠ 0b00 → assembleLine cfg (commandName i) = .error .missingOperand) ∧
      (∀ (i : Instr) (comment : List Char), i.op ≠ 0b00 →
        assembleLine cfg (commandName i ++ ' ' :: ';' :: comment) = .error .missingOperand) ∧
      assembleLine cfg [] = .ok []

/-- R68: the text lines of the pseudo-instructions, their operands literals of any form that fit in W_I bits, separated by a
comma and a space as R68 writes them, assemble to the words of their expansions; with no rows, to the start command's word
alone. That they assemble where SYS_EN is false too is the model's choice (log 14). -/
def Obligations.PseudoInstructionLinesAssembleToTheirExpansions : Prop :=
  (∀ (v r : Operand) (rows : List Operand),
      String.ofList (pseudoName (.product v rows)) = "product" ∧
        String.ofList (pseudoName (.systematic v rows)) = "systematic" ∧
        String.ofList (pseudoName (.dot v r)) = "dot" ∧ String.ofList (pseudoName .clr) = "clr") ∧
    ∀ cfg : Config,
      (∀ (texts : List (List Char)) (v : Operand) (rows : List Operand),
        List.Forall₂ (fun t (d : Operand) => literalValue t = .ok d.toNat ∧ d.toNat < 2 ^ cfg.vecBits) texts (v :: rows) →
          assembleLine cfg (pseudoName (.product v rows) ++ ' ' :: List.intercalate [',', ' '] texts) =
              .ok (encode cfg (.setp v) :: rows.map fun r => encode cfg (.row r)) ∧
            assembleLine cfg (pseudoName (.systematic v rows) ++ ' ' :: List.intercalate [',', ' '] texts) =
              .ok (encode cfg (.sets v) :: rows.map fun r => encode cfg (.row r))) ∧
      (∀ (t u : List Char) (v r : Operand), literalValue t = .ok v.toNat → v.toNat < 2 ^ cfg.vecBits →
        literalValue u = .ok r.toNat → r.toNat < 2 ^ cfg.vecBits →
          assembleLine cfg (pseudoName (.dot v r) ++ ' ' :: t ++ [',', ' '] ++ u) =
            .ok [encode cfg (.setp v), encode cfg (.row r)]) ∧
      assembleLine cfg (pseudoName .clr) = .ok [encode cfg (.setp 0)]

/-- R67: one command, or pseudo-instruction, per line: a text of lines that each assemble gives the words of its lines in
order, and the first line that is refused refuses the text (the last is the model's choice, log 14). -/
def Obligations.AProgramAssemblesLineByLine : Prop :=
  ∀ cfg : Config,
    (∀ (lines : List (List Char)) (words : List (List (BitVec cfg.cmdBits))),
        List.Forall₂ (fun line ws => '\n' ∉ line ∧ assembleLine cfg line = .ok ws) lines words →
          assemble cfg (List.intercalate ['\n'] lines) = .ok words.flatten) ∧
      ∀ (lines : List (List Char)) (words : List (List (BitVec cfg.cmdBits))) (bad rest : List Char) (e : AsmError),
        List.Forall₂ (fun line ws => '\n' ∉ line ∧ assembleLine cfg line = .ok ws) lines words → '\n' ∉ bad →
          assembleLine cfg bad = .error e →
            assemble cfg ((lines.map fun line => line ++ ['\n']).flatten ++ bad ++ '\n' :: rest) = .error e
end

