-- ==== Sys2Proof/Laws/Assembler.lean ====
section
/-! SUPPORT. What the assembler's reading of a line does (R67, R68), for proofs that do not unfold it. -/

namespace Sys2Proof.Machine

/-- A character that separates nothing on a line: no blank, comma or semicolon. -/
def PlainChar (c : Char) : Prop := isBlank c = false ∧ c ≠ ',' ∧ c ≠ ';'

/-- A digit is a plain character. -/
theorem digitValue_plain (c : Char) (d : Nat) (h : digitValue c = some d) : PlainChar c := by
  refine ⟨?_, ?_, ?_⟩
  · by_contra hc
    simp only [isBlank, Bool.not_eq_false, Bool.or_eq_true, beq_iff_eq] at hc
    rcases hc with (rfl | rfl) | rfl <;> revert h <;> simp [digitValue]
  · rintro rfl; revert h; simp [digitValue]
  · rintro rfl; revert h; simp [digitValue]

/-- Digits that have a value are plain characters. -/
theorem digitsValue_plain (b v n : Nat) (t : List Char) (h : digitsValue b v t = .ok n) : ∀ c ∈ t, PlainChar c := by
  induction t generalizing v with
  | nil => simp
  | cons c t ih =>
    simp only [digitsValue] at h
    split at h
    · rename_i d hd
      split at h
      · intro x hx; rcases List.mem_cons.1 hx with rfl | hx
        · exact digitValue_plain _ _ hd
        · exact ih _ h x hx
      · cases h
    · cases h

/-- Digits that have a value are plain characters, and at least one. -/
theorem digits_plain (b n : Nat) (t : List Char) (h : digits b t = .ok n) : t ≠ [] ∧ ∀ c ∈ t, PlainChar c := by
  cases t with
  | nil => cases h
  | cons c t => exact ⟨by simp, digitsValue_plain _ _ _ _ h⟩

/-- A literal that has a value is plain characters, and at least one. -/
theorem literalValue_plain (t : List Char) (n : Nat) (h : literalValue t = .ok n) : t ≠ [] ∧ ∀ c ∈ t, PlainChar c := by
  unfold literalValue at h
  split at h
  · cases h
  · have := digits_plain _ _ _ h
    refine ⟨by simp, ?_⟩
    intro c hc; simp only [List.mem_cons] at hc
    rcases hc with rfl | rfl | hc
    · simp [PlainChar, isBlank]
    · simp [PlainChar, isBlank]
    · exact this.2 c hc
  · have := digits_plain _ _ _ h
    refine ⟨by simp, ?_⟩
    intro c hc; simp only [List.mem_cons] at hc
    rcases hc with rfl | rfl | hc
    · simp [PlainChar, isBlank]
    · simp [PlainChar, isBlank]
    · exact this.2 c hc
  · exact digits_plain _ _ _ h

/-- A text with no blank at either end is not trimmed. -/
theorem trimBlanks_of_ends (t : List Char) (h1 : ∀ c, t.head? = some c → isBlank c = false)
    (h2 : ∀ c, t.getLast? = some c → isBlank c = false) : trimBlanks t = t := by
  have drop : ∀ l : List Char, (∀ c, l.head? = some c → isBlank c = false) → l.dropWhile isBlank = l := by
    intro l hl; cases l with
    | nil => rfl
    | cons a l => simp [hl a rfl]
  unfold trimBlanks
  rw [drop t h1, drop, List.reverse_reverse]
  intro c hc; rw [List.head?_reverse] at hc; exact h2 c hc

/-- A text of plain characters is not trimmed. -/
theorem trimBlanks_of_plain (t : List Char) (h : ∀ c ∈ t, PlainChar c) : trimBlanks t = t :=
  trimBlanks_of_ends t (fun c hc => (h c (List.mem_of_mem_head? hc)).1) (fun c hc => (h c (List.mem_of_getLast? hc)).1)

/-- A text without a comma is one part. -/
theorem splitOn_of_no_separator (t : List Char) (h : ∀ c ∈ t, c ≠ ',') : splitOn ',' t = [t] := by
  induction t with
  | nil => rfl
  | cons c t ih =>
    simp only [splitOn, h c (by simp), if_false, ih (fun c hc => h c (by simp [hc]))]

/-- The space before plain characters is trimmed. -/
theorem trimBlanks_space_plain (t : List Char) (h : ∀ c ∈ t, PlainChar c) : trimBlanks (' ' :: t) = t := by
  have : trimBlanks (' ' :: t) = trimBlanks t := by simp [trimBlanks, isBlank]
  rw [this, trimBlanks_of_plain t h]

/-- What a line of a name, a space and the rest is read as: the name with the operands of the rest. -/
theorem lineCommands_name_space (cfg : Config) (name rest : List Char) (hn : name ≠ [])
    (hc : ∀ c ∈ name, PlainChar c) (hr : ∀ c ∈ rest, c ≠ ';')
    (hl : ∀ c, rest.getLast? = some c → isBlank c = false) (hne : rest ≠ []) :
    lineCommands cfg (name ++ ' ' :: rest) =
      match operandValues cfg (operandTexts (' ' :: rest)) with
      | .error e => .error e
      | .ok operands => commandsOf name operands := by
  obtain ⟨a, n', rfl⟩ : ∃ a n', name = a :: n' := List.exists_cons_of_ne_nil hn
  have ht : ((a :: n') ++ ' ' :: rest).takeWhile (· ≠ ';') = (a :: n') ++ ' ' :: rest := by
    rw [List.takeWhile_eq_self_iff]
    intro c h; simp only [List.mem_append] at h
    rcases h with h | h
    · simpa using (hc c h).2.2
    · simp only [List.mem_cons] at h; rcases h with rfl | h
      · decide
      · simpa using hr c h
  have htr : trimBlanks ((a :: n') ++ ' ' :: rest) = (a :: n') ++ ' ' :: rest := by
    apply trimBlanks_of_ends
    · intro c h; simp at h; subst h; exact (hc _ (by simp)).1
    · intro c h; apply hl
      obtain ⟨r, l, rfl⟩ := List.exists_cons_of_ne_nil hne
      simp only [List.getLast?_append, List.getLast?_cons_cons] at h
      rw [Option.or_of_isSome] at h
      · exact h
      · simp
  unfold lineCommands
  rw [ht, htr]
  simp only [List.cons_append]
  have d : ((a :: n') ++ ' ' :: rest).dropWhile (fun x => !isBlank x) = ' ' :: rest := by
    rw [List.dropWhile_append_of_pos (by intro c h; simp [(hc c h).1])]
    simp [isBlank]
  have k : ((a :: n') ++ ' ' :: rest).takeWhile (fun x => !isBlank x) = a :: n' := by
    rw [List.takeWhile_append_of_pos (by intro c h; simp [(hc c h).1])]
    simp [isBlank]
  simp only [List.cons_append] at d k
  rw [d, k] <;> rfl

/-- A mnemonic is plain characters, and at least one. -/
theorem commandName_plain (i : Instr) : commandName i ≠ [] ∧ ∀ c ∈ commandName i, PlainChar c := by
  cases i <;> simp [commandName, PlainChar, isBlank]

/-- Plain characters after a space are one operand. -/
theorem operandTexts_one (t : List Char) (h : ∀ c ∈ t, PlainChar c) (hne : t ≠ []) : operandTexts (' ' :: t) = [t] := by
  unfold operandTexts
  rw [trimBlanks_space_plain t h]
  obtain ⟨r, l, rfl⟩ := List.exists_cons_of_ne_nil hne
  simp only
  rw [splitOn_of_no_separator _ (fun c hc => (h c hc).2.1)]
  simp [trimBlanks_of_plain _ h]

/-- What a line of a mnemonic, a space and one plain operand is read as. -/
theorem lineCommands_one_operand (cfg : Config) (i : Instr) (t : List Char) (h : ∀ c ∈ t, PlainChar c)
    (hne : t ≠ []) :
    lineCommands cfg (commandName i ++ ' ' :: t) =
      match operandValue cfg t with
      | .error e => .error e
      | .ok d => commandsOf (commandName i) [d] := by
  rw [lineCommands_name_space cfg _ t (commandName_plain i).1 (commandName_plain i).2 (fun c hc => (h c hc).2.2)
      (fun c hc => (h c (List.mem_of_getLast? hc)).1) hne,
    operandTexts_one t h hne]
  simp only [operandValues]
  cases operandValue cfg t <;> rfl

/-- A mnemonic with its one operand is the command. -/
theorem commandsOf_commandName (i : Instr) : commandsOf (commandName i) [i.data] = .ok [i] := by
  cases i <;> rfl

/-- The commands of the pseudo-instructions' names with their operands (R68). -/
theorem commandsOf_product (v : Operand) (rows : List Operand) :
    commandsOf (pseudoName (.product v rows)) (v :: rows) = .ok (Pseudo.product v rows).expand := rfl
theorem commandsOf_systematic (v : Operand) (rows : List Operand) :
    commandsOf (pseudoName (.systematic v rows)) (v :: rows) = .ok (Pseudo.systematic v rows).expand := rfl
theorem commandsOf_dot (v r : Operand) : commandsOf (pseudoName (.dot v r)) [v, r] = .ok (Pseudo.dot v r).expand := rfl
theorem commandsOf_clr : commandsOf (pseudoName .clr) [] = .ok Pseudo.clr.expand := rfl

end Sys2Proof.Machine
end

