-- ==== Sys2Proof/Laws/Ops.lean ====
section
/-! SUPPORT. What the shared operations do, once each. -/

namespace Sys2Proof.Machine

/-- The bits of a shift-and-insert: the new bit at the bottom, every other one place up, the top one lost. -/
theorem getLsbD_shiftInsert {n : Nat} (a : BitVec n) (p : Bool) (i : Nat) :
    (shiftInsert a p).getLsbD i = (decide (i < n) && if i = 0 then p else a.getLsbD (i - 1)) := by
  rcases Nat.eq_zero_or_pos i with rfl | hi
  · cases p <;> simp [shiftInsert, zextBit]
  · have h0 : ¬ i = 0 := by omega
    have h1 : ¬ i < 1 := by omega
    simp [shiftInsert, zextBit, BitVec.getLsbD_setWidth, h0, h1]

/-- Only the bits below `k` of the two words matter to the count. -/
theorem popcountBelow_congr {n m : Nat} (v : BitVec n) (w : BitVec m) (k : Nat)
    (h : ∀ i < k, v.getLsbD i = w.getLsbD i) : popcountBelow v k = popcountBelow w k := by
  induction k with
  | zero => rfl
  | succ k ih =>
    simp only [popcountBelow, h k (by omega)]
    rw [ih fun i hi => h i (by omega)]

@[simp] theorem popcountBelow_zero (n k : Nat) : popcountBelow (0#n) k = 0 := by
  induction k with
  | zero => rfl
  | succ k ih => simp [popcountBelow, ih]

@[simp] theorem dot_zero_right {n : Nat} (v : BitVec n) : dot v (0#n) = false := by
  simp [dot, parity, popcount]

@[simp] theorem dot_zero_left {n : Nat} (r : BitVec n) : dot (0#n) r = false := by
  simp [dot, parity, popcount]

theorem dot_comm {n : Nat} (v r : BitVec n) : dot v r = dot r v := by
  simp [dot, BitVec.and_comm]

/-- A fold of rows never changes VEC (R21). -/
@[simp] theorem foldRows_vec {cfg : Config} (r : Regs cfg) (rows : List (BitVec cfg.vecBits)) :
    (foldRows r rows).vec = r.vec := by
  induction rows generalizing r with
  | nil => rfl
  | cons row rest ih => exact ih (foldRow r row)

/-- No legal width is above 128 (R6). -/
theorem bits_le (w : Width) : w.bits ≤ 128 := by cases w <;> decide

/-- The data field of a W_I-bit value is that value. -/
@[simp] theorem dataField_operandOf {cfg : Config} (d : BitVec cfg.vecBits) : dataField cfg (operandOf d) = d := by
  have h : cfg.vecBits ≤ 128 := bits_le cfg.wI
  apply BitVec.eq_of_toNat_eq
  have hd : d.toNat < 2 ^ 128 := lt_of_lt_of_le d.isLt (Nat.pow_le_pow_right (by decide) h)
  simp only [dataField, operandOf, BitVec.toNat_setWidth, Nat.mod_eq_of_lt hd, Nat.mod_eq_of_lt d.isLt]

/-- The data field of a well-formed operand has the operand's value. -/
theorem dataField_toNat {cfg : Config} {d : Operand} (h : Operand.fits cfg d = true) :
    (dataField cfg d).toNat = d.toNat := by
  simp only [Operand.fits, decide_eq_true_eq] at h
  simp only [dataField, BitVec.toNat_setWidth, Nat.mod_eq_of_lt h]

theorem sysEn_iff (cfg : Config) : sysEn cfg = true ↔ cfg.vecBits ≤ cfg.accBits := by
  simp only [sysEn, decide_eq_true_eq]

/-- Every command answers a next state with other registers at most, or is the refused `sets` (R98, R110, R111). -/
theorem exec_cases (i : Instr) (s : State) :
    (∃ r, exec i s = .next (s.withRegs r)) ∨
      (exec i s = .refused .setsNotInConfig ∧ sysEn s.cfg = false ∧ ∃ v, i = .sets v) := by
  cases i with
  | nop d => exact .inl ⟨s.regs, rfl⟩
  | setp v => exact .inl ⟨_, rfl⟩
  | sets v =>
    cases h : sysEn s.cfg with
    | true => exact .inl ⟨startFold (dataField s.cfg v) (widen s.cfg (dataField s.cfg v)), by simp [exec, execSets, h]⟩
    | false => exact .inr ⟨by simp [exec, execSets, refuseSets, h], rfl, v, rfl⟩
  | row r => exact .inl ⟨_, rfl⟩

end Sys2Proof.Machine
end

