-- ==== Sys2Proof/Laws/PerInstr.lean ====
section
/-! SUPPORT. Per-command facts about the encoding. -/

namespace Sys2Proof.Laws.EncodedOp

/-- In every configuration the `op` field of the encoded command is the command's opcode (R61, R64). -/
def Statement (i : Instr) : Prop := ∀ cfg : Config, opField (encode cfg i) = i.op

/-- The low two bits of a word shifted up by two and or-ed with an opcode are the opcode. -/
theorem opField_shift_or {n : Nat} (d : BitVec (n + 2)) (op : BitVec 2) :
    opField (d <<< 2 ||| op.setWidth (n + 2)) = op := by
  apply BitVec.eq_of_getLsbD_eq
  intro i hi
  have h2 : i < n + 2 := by omega
  simp [opField, hi, h2]

theorem nop (d : Operand) : Statement (.nop d) := fun _ => opField_shift_or _ _
theorem setp (v : Operand) : Statement (.setp v) := fun _ => opField_shift_or _ _
theorem sets (v : Operand) : Statement (.sets v) := fun _ => opField_shift_or _ _
theorem row (r : Operand) : Statement (.row r) := fun _ => opField_shift_or _ _

end Sys2Proof.Laws.EncodedOp
end

