-- ==== Sys2Proof/Laws/State.lean ====
section
/-! SUPPORT. One lemma per field of State per update, so that no proof unfolds a record update. -/

namespace Sys2Proof.Machine

@[simp] theorem State.withRegs_cfg (s : State) (r : Regs s.cfg) : (s.withRegs r).cfg = s.cfg := rfl
@[simp] theorem State.withRegs_regs (s : State) (r : Regs s.cfg) : (s.withRegs r).regs = r := rfl
@[simp] theorem State.withRegs_refusedMark (s : State) (r : Regs s.cfg) :
    (s.withRegs r).refusedMark = s.refusedMark := rfl
@[simp] theorem State.withRegs_cycles (s : State) (r : Regs s.cfg) : (s.withRegs r).cycles = s.cycles := rfl

@[simp] theorem State.markRefused_cfg (s : State) : s.markRefused.cfg = s.cfg := rfl
@[simp] theorem State.markRefused_regs (s : State) : s.markRefused.regs = s.regs := rfl
@[simp] theorem State.markRefused_refusedMark (s : State) : s.markRefused.refusedMark = true := rfl
@[simp] theorem State.markRefused_cycles (s : State) : s.markRefused.cycles = s.cycles := rfl

@[simp] theorem State.endCycle_cfg (s : State) : s.endCycle.cfg = s.cfg := rfl
@[simp] theorem State.endCycle_regs (s : State) : s.endCycle.regs = s.regs := rfl
@[simp] theorem State.endCycle_refusedMark (s : State) : s.endCycle.refusedMark = s.refusedMark := rfl
@[simp] theorem State.endCycle_cycles (s : State) : s.endCycle.cycles = s.cycles.tail := rfl

@[simp] theorem State.resetEdge_cfg (s : State) : s.resetEdge.cfg = s.cfg := rfl
@[simp] theorem State.resetEdge_regs (s : State) : s.resetEdge.regs = Regs.zero s.cfg := rfl
@[simp] theorem State.resetEdge_refusedMark (s : State) : s.resetEdge.refusedMark = s.refusedMark := rfl
@[simp] theorem State.resetEdge_cycles (s : State) : s.resetEdge.cycles = s.cycles.tail := rfl

@[simp] theorem State.withCycle_cfg (s : State) (c : PortCycle s.cfg.cmdBits) : (s.withCycle c).cfg = s.cfg := rfl
@[simp] theorem State.withCycle_regs (s : State) (c : PortCycle s.cfg.cmdBits) : (s.withCycle c).regs = s.regs := rfl
@[simp] theorem State.withCycle_refusedMark (s : State) (c : PortCycle s.cfg.cmdBits) :
    (s.withCycle c).refusedMark = s.refusedMark := rfl
@[simp] theorem State.withCycle_cycles (s : State) (c : PortCycle s.cfg.cmdBits) :
    (s.withCycle c).cycles = c :: s.cycles := rfl

/-- A cycle put first is the current one, and the edge that closes it leaves the state as it was. -/
@[simp] theorem State.withCycle_currentCycle (s : State) (c : PortCycle s.cfg.cmdBits) :
    (s.withCycle c).currentCycle = c := rfl
@[simp] theorem State.withCycle_endCycle (s : State) (c : PortCycle s.cfg.cmdBits) : (s.withCycle c).endCycle = s := rfl

@[simp] theorem startFold_vec {cfg : Config} (v : BitVec cfg.vecBits) (a : BitVec cfg.accBits) :
    (startFold v a).vec = v := rfl
@[simp] theorem startFold_acc {cfg : Config} (v : BitVec cfg.vecBits) (a : BitVec cfg.accBits) :
    (startFold v a).acc = a := rfl
@[simp] theorem foldRow_vec {cfg : Config} (r : Regs cfg) (row : BitVec cfg.vecBits) : (foldRow r row).vec = r.vec := rfl
@[simp] theorem foldRow_acc {cfg : Config} (r : Regs cfg) (row : BitVec cfg.vecBits) :
    (foldRow r row).acc = shiftInsert r.acc (dot r.vec row) := rfl
@[simp] theorem Regs.zero_vec (cfg : Config) : (Regs.zero cfg).vec = 0#cfg.vecBits := rfl
@[simp] theorem Regs.zero_acc (cfg : Config) : (Regs.zero cfg).acc = 0#cfg.accBits := rfl

end Sys2Proof.Machine
end

