-- ==== Sys2Proof/Laws/Step.lean ====
section
/-! SUPPORT. What one step can do, said once. -/

namespace Sys2Proof.Machine

theorem step_refusedMark {s : State} (h : s.refusedMark = true) : step s = .refused .setsNotInConfig := by
  simp [step, h, refuseSets]

theorem step_reset {s : State} (hm : s.refusedMark = false) (h : s.currentCycle.event = .reset) :
    step s = .next s.resetEdge := by
  simp [step, hm, h]

theorem step_hold {s : State} (hm : s.refusedMark = false) (h : s.currentCycle.event = .hold) :
    step s = .next s.endCycle := by
  simp [step, hm, h]

theorem step_accept {s : State} {w : BitVec s.cfg.cmdBits} (hm : s.refusedMark = false)
    (h : s.currentCycle.event = .accept w) : step s = exec (decode s.cfg w) s.endCycle := by
  simp [step, hm, h]

@[simp] theorem core_run_zero (s : State) : core.run 0 s = Host.Outcome.next s := rfl

/-- A run goes on from the state its first step answers. -/
theorem core_run_next {s t : State} (h : step s = .next t) (k : Nat) : core.run (k + 1) s = core.run k t := by
  have h' : core.step s = Host.Outcome.next t := h
  simp only [Host.Core.run, h']

/-- A run ends where its first step refuses. -/
theorem core_run_refused {s : State} {r : Refusal} (h : step s = .refused r) (k : Nat) :
    core.run (k + 1) s = Host.Outcome.refused r := by
  have h' : core.step s = Host.Outcome.refused r := h
  simp only [Host.Core.run, h']
  rfl

/-- A step that answers a next state starts unmarked, and resets, holds, or runs the accepted command. -/
theorem step_next_cases {s t : State} (h : step s = .next t) :
    s.refusedMark = false ∧
      ((s.currentCycle.event = .reset ∧ t = s.resetEdge) ∨ (s.currentCycle.event = .hold ∧ t = s.endCycle) ∨
        ∃ w, s.currentCycle.event = .accept w ∧ exec (decode s.cfg w) s.endCycle = .next t) := by
  cases hm : s.refusedMark with
  | true => rw [step_refusedMark hm] at h; cases h
  | false =>
    refine ⟨rfl, ?_⟩
    cases he : s.currentCycle.event with
    | reset => rw [step_reset hm he] at h; cases h; exact .inl ⟨rfl, rfl⟩
    | hold => rw [step_hold hm he] at h; cases h; exact .inr (.inl ⟨rfl, rfl⟩)
    | accept w => exact .inr (.inr ⟨w, rfl, by rw [← step_accept hm he, h]⟩)

end Sys2Proof.Machine
end

