-- ==== Sys2Proof/Tests/Slice0.lean ====
section
/-! SUPPORT. The model's own tests: the smoke test of WellFormed, decoding of words written out from R61 and R64, single
steps with the results of spec/95_test_vectors.md, and for every statement with hypotheses a witness that meets them. -/

namespace Sys2Proof.Tests

open Sys2Proof Sys2Proof.Machine Sys2Proof.Safety

/-- A state of a configuration with the given VEC and ACC. -/
def stateOf (cfg : Config) (vec acc : Nat) : State :=
  { cfg := cfg, regs := { vec := BitVec.ofNat cfg.vecBits vec, acc := BitVec.ofNat cfg.accBits acc },
    refusedMark := false, cycles := [] }

/-- VEC and ACC after a step. -/
def regsAfter : Host.Outcome State Fault Refusal → Option (Nat × Nat)
  | .next t => some (t.regs.vec.toNat, t.regs.acc.toNat)
  | .fault _ => none
  | .refused _ => none

/-- The refusal a step answers. -/
def refusalOf : Host.Outcome State Fault Refusal → Option Refusal
  | .next _ => none
  | .fault _ => none
  | .refused r => some r

/-- W_I = 8, W_O = 8: the smallest widths. -/
def cfg8x8 : Config := { wI := .w8, wO := .w8 }
/-- W_I = 16, W_O = 8: SYS_EN is false. -/
def cfg16x8 : Config := { wI := .w16, wO := .w8 }
/-- W_I = 128, W_O = 8. -/
def cfg128x8 : Config := { wI := .w128, wO := .w8 }

/-! WellFormed: an operand that does not fit in W_I bits is refused, for every command (R67). -/

theorem test_nop_operand_too_wide : (Instr.nop 0x10000).wellFormed Config.reference = false := by decide
theorem test_setp_operand_too_wide : (Instr.setp 0x100).wellFormed cfg8x8 = false := by decide
theorem test_sets_operand_too_wide : (Instr.sets 0x10000).wellFormed cfg16x8 = false := by decide
theorem test_row_operand_too_wide : (Instr.row 0x10000).wellFormed Config.reference = false := by decide
theorem test_widest_operand_fits : (Instr.row 0xFFFF).wellFormed Config.reference = true := by decide

/-! Decoding: words written out bit by bit, data then op (R61, R64). -/

theorem test_decode_nop : decode Config.reference 0b0001001000110100_00#18 = .nop 0x1234 := by decide
theorem test_decode_setp : decode Config.reference 0b0000000000001010_01#18 = .setp 0b1010 := by decide
theorem test_decode_sets : decode Config.reference 0b0000011111111101_10#18 = .sets 0x7FD := by decide
theorem test_decode_row : decode Config.reference 0b1000000000000000_11#18 = .row 0x8000 := by decide
theorem test_decode_smallest_width : decode cfg8x8 0b10000000_01#10 = .setp 0x80 := by decide
theorem test_no_word_beyond_wires : decodeNumber Config.reference 0x40000 = .error .beyondCommandWord := by rfl

/-! Single steps (95_test_vectors.md §2.1). -/

theorem test_nop_ignores_data :
    regsAfter (step ((stateOf Config.reference 0x000A 0x1A).withFetchWord 18 0x3FFFC)) = some (0x000A, 0x1A) := by decide

theorem test_setp_discards_fold :
    regsAfter (step ((stateOf Config.reference 0x1234 0xDEADBEEF).withFetchWord 18 0x00001)) = some (0, 0) := by decide

theorem test_setp_smallest_widths :
    regsAfter (step ((stateOf cfg8x8 0x55 0xAA).withFetchWord 10 0x201)) = some (0x80, 0x00) := by decide

theorem test_sets_loads_both :
    regsAfter (step ((stateOf Config.reference 0x1234 0xDEADBEEF).withFetchWord 18 0x01FF6)) =
      some (0x07FD, 0x000007FD) := by decide

theorem test_sets_refused_where_wider :
    refusalOf (step ((stateOf cfg16x8 0x0001 0x02).withFetchWord 18 0x00006)) = some .setsNotInConfig := by decide

theorem test_row_loses_top_acc_bit :
    regsAfter (step ((stateOf Config.reference 0x8000 0x80000000).withFetchWord 18 0x20003)) = some (0x8000, 1) := by decide

theorem test_row_wider_than_acc :
    regsAfter (step ((stateOf cfg128x8 (2 ^ 127 + 1) 0x01).withFetchWord 130 (2 ^ 129 + 3))) =
      some (2 ^ 127 + 1, 0x03) := by decide +kernel

theorem test_reset_beats_command :
    regsAfter (step ((stateOf cfg8x8 0x55 0xAA).withCycle
      { rst := true, cmdValid := true, cmdWord := 0x201, readyChoice := true })) = some (0, 0) := by decide

theorem test_stalled_command_waits :
    regsAfter (step ((stateOf cfg8x8 0x55 0xAA).withCycle (PortCycle.offer 0x201 false))) = some (0x55, 0xAA) := by decide

/-! The assembler (R67, R68; the lines of 95_test_vectors.md §3). -/

theorem test_assemble_comment :
    assembleLine Config.reference "setp 0b1010        ; 0x00029".toList = .ok [0x00029] := by rfl
theorem test_assemble_nop_default : assembleLine Config.reference "nop".toList = .ok [0x00000] := by rfl
theorem test_assemble_hexadecimal : assembleLine cfg8x8 "sets 0x81".toList = .ok [0x206] := by rfl
theorem test_assemble_too_wide : assembleLine cfg8x8 "row 256".toList = .error .operandTooWide := by rfl
theorem test_assemble_dot :
    assembleLine Config.reference "dot 0b1010, 0b10".toList = .ok [0x00029, 0x0000B] := by rfl

theorem test_assemble_missing_operand : assembleLine Config.reference "row ; none".toList = .error .missingOperand := by rfl
theorem test_assemble_decimal : assembleLine Config.reference "setp 10".toList = .ok [0x00029] := by rfl

/-! Witnesses: for each statement with hypotheses, values that meet them together. -/

theorem witness_encoding_well_formed :
    (Instr.sets 0xFFFF).wellFormed Config.reference = true ∧ (Instr.nop 0).wellFormed cfg8x8 = true := by decide

theorem witness_ANumberDecodes_beyond : 2 ^ Config.reference.cmdBits ≤ 0x40000 := by decide

theorem witness_DotUsesTheFullWordWidth : (15 : Nat) < 16 ∧ (0x0001#16).getLsbD 15 = false ∧ (16 : Nat) ≤ 16 := by decide

theorem witness_NopKeepsEveryState_word :
    0x3FFFC &&& BitVec.ofNat Config.reference.cmdBits 3 = BitVec.ofNat Config.reference.cmdBits 0 := by decide

theorem witness_SetpStartsAProductFold_word :
    0x3FFFD &&& BitVec.ofNat Config.reference.cmdBits 3 = BitVec.ofNat Config.reference.cmdBits 1 := by decide

theorem witness_SetsStartsASystematicFold :
    (stateOf Config.reference 0 0).cfg.vecBits ≤ (stateOf Config.reference 0 0).cfg.accBits ∧
      (stateOf cfg8x8 0 0).cfg.vecBits ≤ (stateOf cfg8x8 0 0).cfg.accBits ∧
      0x3FFFE &&& BitVec.ofNat Config.reference.cmdBits 3 = BitVec.ofNat Config.reference.cmdBits 2 := by decide

theorem witness_SetsIsRefusedExactlyWhereTheVectorIsWider :
    (stateOf cfg16x8 0 0).cfg.accBits < (stateOf cfg16x8 0 0).cfg.vecBits ∧
      (0x00006#18).toNat % 4 = 2 := by decide

theorem witness_RowFoldsOneRowIntoAcc_word :
    0x3FFFF &&& BitVec.ofNat Config.reference.cmdBits 3 = BitVec.ofNat Config.reference.cmdBits 3 := by decide

theorem witness_RowCornerCases :
    (stateOf Config.reference 0 5).regs.vec = BitVec.ofNat 16 0 ∧
      ((List.range 16).filter fun i => (stateOf Config.reference 0x8001 5).regs.vec.getLsbD i).length % 2 = 0 ∧
      (stateOf Config.reference 0xFFFF 5).regs.vec = BitVec.allOnes 16 ∧
      (stateOf cfg8x8 0 0).cfg.vecBits ≤ (stateOf cfg8x8 0 0).cfg.accBits := ⟨rfl, rfl, rfl, le_refl 8⟩

theorem witness_AFoldSeesOneFixedVector :
    ∀ i ∈ [Instr.row 0xF, .nop 0x1234, .row 0], i.op = 0b00 ∨ i.op = 0b11 := by decide

theorem witness_StartCommands_row : ∃ t, execAll [.row 1, .row 1] (stateOf cfg8x8 1 0xC0) = .next t := ⟨_, rfl⟩

theorem witness_IssuesRows :
    IssuesRows (cfg := Config.reference) [.row 0xF, .nop 0x1234, .row 2] [0xF#16, 2#16] := by rfl

theorem witness_IssuesNoRows : IssuesRows (cfg := cfg8x8) [] [] := by rfl

theorem witness_SystematicIsTheVectorAboveTheDots :
    Config.reference.vecBits ≤ Config.reference.accBits ∧ FitsSystematic Config.reference 0xFFFF#16 16 := by
  unfold FitsSystematic; decide

theorem witness_RowsLandMsbFirst :
    cfg8x8.vecBits ≤ cfg8x8.accBits ∧ 7 < [0x80#8, 0, 0, 0, 0, 0, 0, 0].length ∧ 7 < cfg8x8.accBits ∧
      [0x80#8, 1].length ≤ 2 ∧ 2 < cfg8x8.accBits := by decide

theorem witness_SystematicIdentity :
    Config.reference.vecBits ≤ Config.reference.accBits ∧
      (List.replicate 16 0x8001#16).length ≤ Config.reference.accBits - Config.reference.vecBits := by decide

theorem witness_PermutedRows : 8 ≤ cfg8x8.accBits ∧ Equiv.swap (0 : Fin 8) 7 0 = 7 := by decide

theorem witness_ProductKeepsTheLastRows : cfg8x8.accBits < (List.replicate 9 1#8).length ∧ 7 < cfg8x8.accBits := by decide

theorem witness_SystematicLosesVectorBitsFirst :
    cfg8x8.vecBits ≤ cfg8x8.accBits ∧ 6 < cfg8x8.vecBits ∧ 6 + [0x80#8].length < cfg8x8.accBits ∧
      cfg8x8.accBits ≤ 7 + [0x80#8].length ∧ 1 ≤ 1 ∧ 1 ≤ [0x80#8].length ∧ [0x80#8].length ≤ cfg8x8.accBits := by decide

theorem witness_AStartCommandDiscards :
    (∃ t, execAll [.setp 3, .row 1] (stateOf cfg8x8 9 9) = .next t) ∧ cfg8x8.vecBits ≤ cfg8x8.accBits := ⟨⟨_, rfl⟩, by decide⟩

theorem witness_AResetEdge :
    (stateOf cfg8x8 1 2).refusedMark = false ∧ (stateOf cfg8x8 1 2).markRefused.refusedMark = true ∧
      ({ rst := true, cmdValid := true, cmdWord := 0x201, readyChoice := true } : PortCycle 10).rst = true := by decide

theorem witness_AStepRunsTheAcceptedCommand :
    (PortCycle.offer 0x201#10 true).rst = false ∧ (PortCycle.offer 0x201#10 true).cmdValid = true ∧
      ((stateOf cfg8x8 1 2).withCycle (PortCycle.offer 0x201 true)).cmdReady = true ∧
      ((stateOf cfg8x8 1 2).withCycle (PortCycle.offer 0x201 false)).cmdReady = false ∧
      (stateOf cfg8x8 1 2).refusedMark = false := by decide

theorem witness_AStepRunsTheEncodedCommand :
    State.reset.refusedMark = false ∧ (Instr.row 0xFFFF).wellFormed State.reset.cfg = true := by decide

theorem witness_AnIdleStep : State.reset.refusedMark = false ∧ State.reset.cycles = [] := by decide

theorem witness_AFetchedTableWordRunsNext :
    decodeTableWord 8 0 = some (.nop 0) ∧ decodeTableWord 8 1 = some (.setp 0) ∧ decodeTableWord 8 2 = some (.sets 0) ∧
      decodeTableWord 8 3 = some (.row 0) ∧ State.reset.refusedMark = false := by decide

theorem witness_Outputs :
    exec (decode cfg8x8 0x201) (stateOf cfg8x8 0x55 0xAA) =
        .next ((stateOf cfg8x8 0x55 0xAA).withRegs (startFold (cfg := cfg8x8) 0x80#8 0#8)) ∧
      (∀ c ∈ [PortCycle.offer 0x201#10 false, PortCycle.idle 10], c.event = .hold) ∧
      (stateOf cfg8x8 0x55 0xAA).refusedMark = false := ⟨rfl, by decide, rfl⟩

theorem witness_ARefusedRun :
    step ((stateOf cfg16x8 1 2).withFetchWord 18 0x00006) = .refused .setsNotInConfig ∧
      (stateOf cfg16x8 1 2).markRefused.refusedMark = true := ⟨rfl, rfl⟩

theorem witness_AnOfferedCommand : WeaklyFair (fun n => n % 3 == 2) ∧ State.reset.refusedMark = false := by
  refine ⟨fun k => ⟨2 + 2 * k, ?_⟩, rfl⟩
  have h : (k + (2 + 2 * k)) % 3 = 2 := by omega
  simp [h]

theorem witness_NoStepChanges : step (State.reset.withFetchWord 18 0x0003F) = .next State.reset := by rfl

theorem witness_EveryStepKeeps : ZeroVecHasZeroAcc State.reset ∧ step State.reset = .next State.reset :=
  ⟨⟨rfl, fun _ => rfl⟩, rfl⟩

theorem witness_TheClockedBlock :
    (State.reset.withCycle (PortCycle.offer 0x00029 false)).refusedMark = false ∧
      (State.reset.withCycle (PortCycle.offer 0x00029 false)).cycles.length = 1 := by decide

theorem witness_RunsAreSafe :
    (State.reset.withCycle (PortCycle.offer 0x00029 true)).refusedMark = false ∧
      (PortCycle.offer 0x00029#18 true).event = .accept 0x00029 ∧
      legalIn Config.reference (decode Config.reference 0x00029) = true := by decide

theorem witness_LegalCommandsRunToAnEnd :
    ∀ i ∈ [Instr.setp 3, .nop 0, .row 1, .row 2], legalIn cfg16x8 i = true := by decide

/-- The refused step of W_I = 16, W_O = 8. -/
def refusing : State := (stateOf cfg16x8 1 2).withFetchWord 18 0x00006

theorem witness_BlocksAreIndependent :
    (0 : Nat) ≠ 1 ∧ ([State.reset, refusing] : System)[0]? = some State.reset ∧ step State.reset = .next State.reset ∧
      ([State.reset, refusing] : System)[1]? = some refusing ∧ step refusing = .refused .setsNotInConfig :=
  ⟨by decide, rfl, rfl, rfl, rfl⟩

theorem witness_ASourceLineAssemblesToItsWord :
    literalValue ['0', 'x', 'f', 'F'] = .ok (Instr.row 0xFF).data.toNat ∧ (Instr.row 0xFF).data.toNat < 2 ^ cfg8x8.vecBits ∧
      literalValue ['2', '5', '6'] = .ok 256 ∧ 2 ^ cfg8x8.vecBits ≤ 256 ∧ (Instr.setp 0b1010).wellFormed cfg8x8 = true :=
  ⟨rfl, by decide, rfl, by decide, by decide⟩

theorem witness_LiteralsAreReadInTheirThreeForms :
    ([0, 1] : List Nat) ≠ [] ∧ (∀ d ∈ [0, 1], d < 2) ∧ (∀ d ∈ [0, 9], d < 10) ∧
      List.Forall₂ (fun c d => d < 16 ∧ (c = Nat.digitChar d ∨ c = (Nat.digitChar d).toUpper)) ['f', 'F'] [15, 15] := by
  decide

theorem witness_CommentsAndOperandsLeftOut : (Instr.setp 0).op ≠ 0b00 ∧ (Instr.row 0).op ≠ 0b00 := by decide

theorem witness_PseudoInstructionLines :
    List.Forall₂ (fun t (d : Operand) => literalValue t = .ok d.toNat ∧ d.toNat < 2 ^ cfg8x8.vecBits)
      [['0', 'b', '1', '0'], ['2', '5', '5']] [2, 255] :=
  .cons ⟨rfl, by decide⟩ (.cons ⟨rfl, by decide⟩ .nil)

theorem witness_PseudoInstructionLines_no_rows :
    List.Forall₂ (fun t (d : Operand) => literalValue t = .ok d.toNat ∧ d.toNat < 2 ^ cfg8x8.vecBits) [['7']] [7] :=
  .cons ⟨rfl, by decide⟩ .nil

theorem witness_AProgramAssemblesLineByLine :
    List.Forall₂ (fun line ws => '\n' ∉ line ∧ assembleLine cfg8x8 line = .ok ws) [['n', 'o', 'p'], ['c', 'l', 'r']]
        [[0x000#10], [0x001#10]] ∧
      '\n' ∉ ['r', 'o', 'w'] ∧ assembleLine cfg8x8 ['r', 'o', 'w'] = .error .missingOperand :=
  ⟨.cons ⟨by decide, rfl⟩ (.cons ⟨by decide, rfl⟩ .nil), by decide, rfl⟩

end Sys2Proof.Tests
end

section
/-! PROOF. What decoding a command word gives, and the command format (30_encoding.md R8, R61). -/

namespace Sys2Proof

open Machine

/-- Two opcodes with the same two bits are equal. -/
theorem opcode_eq_of_bits (o p : BitVec 2) (h1 : o.getLsbD 1 = p.getLsbD 1) (h0 : o.getLsbD 0 = p.getLsbD 0) :
    o = p := by
  apply BitVec.eq_of_getLsbD_eq
  intro i hi
  obtain rfl | rfl : i = 0 ∨ i = 1 := by omega
  · exact h0
  · exact h1

/-- The decoded command's opcode is the word's `op` field (R62, R64). -/
@[simp] theorem decode_op (cfg : Config) (w : BitVec cfg.cmdBits) : (decode cfg w).op = opField w := by
  unfold decode
  split <;> rename_i h1 h0 <;>
    exact opcode_eq_of_bits _ _ (by simpa [Instr.op] using h1.symm) (by simpa [Instr.op] using h0.symm)

/-- The decoded command's operand is the word's data field, whichever command it is (R63). -/
@[simp] theorem decode_data (cfg : Config) (w : BitVec cfg.cmdBits) :
    (decode cfg w).data = (dataBits cfg w).setWidth 128 := by
  unfold decode
  split <;> rfl

/-- The `op` field is the word modulo 4 (R61). -/
theorem opField_toNat {n : Nat} (w : BitVec n) : (opField w).toNat = w.toNat % 4 := by
  simp [opField]

/-- The data field is the word divided by 4: it holds every bit above the lowest two (R61). -/
theorem dataBits_toNat (cfg : Config) (w : BitVec cfg.cmdBits) : (dataBits cfg w).toNat = w.toNat / 4 := by
  have hw : w.toNat / 4 < 2 ^ cfg.vecBits :=
    Nat.div_lt_of_lt_mul (w.isLt.trans_eq (by rw [Nat.pow_add, Nat.mul_comm]))
  rw [dataBits, BitVec.extractLsb'_toNat, Nat.shiftRight_eq_div_pow, Nat.mod_eq_of_lt hw]

/-- A data field is not cut by the operand's 128 bits, the widest W_I (R6). -/
theorem decode_data_toNat (cfg : Config) (w : BitVec cfg.cmdBits) :
    (decode cfg w).data.toNat = w.toNat / 4 := by
  rw [decode_data, BitVec.toNat_setWidth_of_le (bits_le cfg.wI), dataBits_toNat]

/-- Settles O2: a word is read as op and data by the lemmas above, at every width. -/
theorem commandFormatIsOpBelowData : Obligations.CommandFormatIsOpBelowData := by
  refine ⟨fun _ => rfl, rfl, fun cfg w => ⟨?_, decode_data_toNat cfg w, dataBits_toNat cfg w⟩⟩
  rw [decode_op, opField_toNat]

end Sys2Proof
end

section
/-! PROOF. The one refusal: `sets` where W_I > W_O (00_scope.md R7, R66, R111). -/

namespace Sys2Proof.Machine

/-- `sets` where W_I > W_O is refused, whatever its data (R86, R111). -/
theorem exec_sets_refused (v : Operand) (s : State) (h : s.cfg.accBits < s.cfg.vecBits) :
    exec (.sets v) s = .refused .setsNotInConfig := by
  have hsys : ¬ sysEn s.cfg = true := by rw [sysEn_iff]; omega
  exact if_neg hsys

/-- Only `sets` has the opcode 2 (R64). -/
theorem eq_sets_of_op (i : Instr) (h : i.op.toNat = 2) : ∃ v, i = .sets v := by
  cases i with
  | sets v => exact ⟨v, rfl⟩
  | nop _ | setp _ | row _ => exact absurd h (by simp [Instr.op])

/-- A command is refused exactly when it is `sets` in a configuration with W_I > W_O (R66). -/
theorem exec_refused_iff (i : Instr) (s : State) :
    exec i s = .refused .setsNotInConfig ↔ i.op.toNat = 2 ∧ s.cfg.accBits < s.cfg.vecBits := by
  constructor
  · intro h
    obtain ⟨r, hr⟩ | ⟨-, hsys, v, rfl⟩ := exec_cases i s
    · rw [hr] at h; cases h
    · rw [← Bool.not_eq_true, sysEn_iff] at hsys
      exact ⟨rfl, Nat.lt_of_not_le hsys⟩
  · rintro ⟨hop, hw⟩
    obtain ⟨v, rfl⟩ := eq_sets_of_op i hop
    exact exec_sets_refused v s hw

/-- A command that is not refused answers a next state: there is no third outcome (R110, R111). -/
theorem exists_next_iff_not_refused (i : Instr) (s : State) :
    (∃ t, exec i s = .next t) ↔ ¬ exec i s = .refused .setsNotInConfig := by
  obtain ⟨r, hr⟩ | ⟨hr, -⟩ := exec_cases i s <;> simp [hr]

/-- Settles O14: a word's refusal is that of its decoded command, whose op is the word modulo 4. -/
theorem setsIsRefusedExactlyWhereTheVectorIsWider : Obligations.SetsIsRefusedExactlyWhereTheVectorIsWider := by
  refine ⟨sysEn_iff, fun s d => exec_sets_refused d s, fun s w => ?_⟩
  have refused : exec (decode s.cfg w) s = .refused .setsNotInConfig ↔
      w.toNat % 4 = 2 ∧ s.cfg.accBits < s.cfg.vecBits := by
    rw [exec_refused_iff, decode_op, opField_toNat]
  exact ⟨refused, (exists_next_iff_not_refused _ _).trans (not_congr refused)⟩

end Sys2Proof.Machine
end

section
/-! PROOF. The value of a literal of the assembler's text (00_scope.md R13, R67). -/

namespace Sys2Proof.Machine

/-- The character is read as the digit `d` of the base. -/
def ReadsAsDigit (base : Nat) (c : Char) (d : Nat) : Prop := digitValue c = some d ∧ d < base

/-- The library's digit characters are read as their digits. -/
theorem digitValue_digitChar (d : Nat) (h : d < 16) : digitValue (Nat.digitChar d) = some d := by
  revert d; decide

/-- A hexadecimal digit in upper case is read as the same digit (log 14). -/
theorem digitValue_digitChar_toUpper (d : Nat) (h : d < 16) : digitValue (Nat.digitChar d).toUpper = some d := by
  revert d; decide

/-- Digits written as the library writes them are read back, in every base up to 16. -/
theorem forall₂_readsAsDigit_map {base : Nat} (hb : base ≤ 16) {ds : List Nat} (h : ∀ d ∈ ds, d < base) :
    List.Forall₂ (ReadsAsDigit base) (ds.map Nat.digitChar) ds := by
  rw [List.forall₂_map_left_iff, List.forall₂_same]
  exact fun d hd => ⟨digitValue_digitChar d ((h d hd).trans_le hb), h d hd⟩

/-- Each digit read moves the value before it one place up. -/
theorem digitsValue_eq_ofDigits {base : Nat} {cs : List Char} {ds : List Nat}
    (h : List.Forall₂ (ReadsAsDigit base) cs ds) (value : Nat) :
    digitsValue base value cs = .ok (value * base ^ ds.length + Nat.ofDigits base ds.reverse) := by
  induction h generalizing value with
  | nil => simp [digitsValue]
  | @cons c d cs ds hcd _ ih =>
    obtain ⟨hc, hd⟩ := hcd
    calc digitsValue base value (c :: cs)
        = digitsValue base (value * base + d) cs := by simp [digitsValue, hc, hd]
      _ = .ok ((value * base + d) * base ^ ds.length + Nat.ofDigits base ds.reverse) := ih _
      _ = .ok (value * base ^ (d :: ds).length + Nat.ofDigits base (d :: ds).reverse) := by
        rw [Nat.ofDigits_reverse_cons, List.length_cons]
        congr 1
        ring

/-- At least one digit of the base has the value of the digits. -/
theorem digits_eq_ofDigits {base : Nat} {cs : List Char} {ds : List Nat} (hne : ds ≠ [])
    (h : List.Forall₂ (ReadsAsDigit base) cs ds) : digits base cs = .ok (Nat.ofDigits base ds.reverse) := by
  cases h with
  | nil => exact absurd rfl hne
  | cons hcd hrest => simpa [digits] using digitsValue_eq_ofDigits (.cons hcd hrest) 0

/-- A text of decimal digits is read as a decimal literal: `-` is no digit, and neither `b` nor `x` is a decimal one, so
it starts no literal of another form. -/
theorem literalValue_of_decimal {cs : List Char} {ds : List Nat} (h : List.Forall₂ (ReadsAsDigit 10) cs ds) :
    literalValue cs = digits 10 cs := by
  have noDash (d : Nat) : ¬ ReadsAsDigit 10 '-' d := fun hd => absurd hd.1 (by simp [digitValue])
  have noB (d : Nat) : ¬ ReadsAsDigit 10 'b' d := fun ⟨hd, _⟩ => by simp [digitValue] at hd; omega
  have noX (d : Nat) : ¬ ReadsAsDigit 10 'x' d := fun hd => absurd hd.1 (by simp [digitValue])
  unfold literalValue
  split
  · cases h with | cons hd _ => exact absurd hd (noDash _)
  · cases h with | cons _ hrest => cases hrest with | cons hd _ => exact absurd hd (noB _)
  · cases h with | cons _ hrest => cases hrest with | cons hd _ => exact absurd hd (noX _)
  · rfl

/-- Settles O50: in each form the digits are read one by one in the form's base. -/
theorem literalsAreReadInTheirThreeForms : Obligations.LiteralsAreReadInTheirThreeForms := by
  refine ⟨fun ds hne h => ?binary, fun ds hne h => ?decimal, fun cs ds hne h => ?hexadecimal⟩
  case binary => exact digits_eq_ofDigits hne (forall₂_readsAsDigit_map (by decide) h)
  case decimal =>
    have hread := forall₂_readsAsDigit_map (base := 10) (by decide) h
    rw [literalValue_of_decimal hread, digits_eq_ofDigits hne hread]
  case hexadecimal =>
    refine digits_eq_ofDigits hne (h.imp fun c d hcd => ?_)
    obtain ⟨hd, rfl | rfl⟩ := hcd
    · exact ⟨digitValue_digitChar d hd, hd⟩
    · exact ⟨digitValue_digitChar_toUpper d hd, hd⟩

end Sys2Proof.Machine
end

section
/-! PROOF. The state over a fold and over a step (10_state.md R21, R22, R26; 40_commands.md R84, R87). -/

namespace Sys2Proof.Machine

/-- A command that answers a next state lets the commands after it go on from there (R47). -/
theorem execAll_cons_next {i : Instr} {s t : State} (h : exec i s = .next t) (is : List Instr) :
    execAll (i :: is) s = execAll is t := by
  simp only [execAll, h]

/-- A row or a NOP completes and writes ACC at most (R84, R87). -/
theorem exec_row_or_nop (i : Instr) (s : State) (h : i.op = 0b00 ∨ i.op = 0b11) :
    ∃ acc : BitVec s.cfg.accBits, exec i s = .next (s.withRegs { s.regs with acc := acc }) := by
  cases i with
  | nop _ => exact ⟨s.regs.acc, rfl⟩
  | row r => exact ⟨(foldRow s.regs (dataField s.cfg r)).acc, rfl⟩
  | setp _ | sets _ => exact absurd h (by simp [Instr.op])

/-- Settles O19, by induction on the commands: each of them completes and hands the next one the same VEC. -/
theorem aFoldSeesOneFixedVector : Obligations.AFoldSeesOneFixedVector := by
  intro s is h
  induction is generalizing s with
  | nil => exact ⟨s.regs.acc, rfl⟩
  | cons i is ih =>
    obtain ⟨hi, his⟩ := List.forall_mem_cons.mp h
    obtain ⟨acc, hexec⟩ := exec_row_or_nop i s hi
    obtain ⟨acc', hrest⟩ := ih (s.withRegs { s.regs with acc := acc }) his
    exact ⟨acc', (execAll_cons_next hexec is).trans hrest⟩

/-- A command's next state differs from the state before in the registers at most (R98). -/
theorem exec_next_eq_withRegs {i : Instr} {s t : State} (h : exec i s = .next t) :
    ∃ r : Regs s.cfg, t = s.withRegs r := by
  obtain ⟨r, hr⟩ | ⟨hr, -⟩ := exec_cases i s <;> rw [hr] at h <;> cases h
  exact ⟨r, rfl⟩

/-- A step's next state is the state with its current cycle over, the registers apart. -/
theorem step_next_eq_withRegs {s t : State} (h : step s = .next t) :
    ∃ r : Regs s.cfg, t = s.endCycle.withRegs r := by
  obtain ⟨-, ⟨-, rfl⟩ | ⟨-, rfl⟩ | ⟨w, -, hexec⟩⟩ := step_next_cases h
  · exact ⟨Regs.zero s.cfg, rfl⟩
  · exact ⟨s.regs, rfl⟩
  · exact exec_next_eq_withRegs hexec

/-- Settles O43: a step starts unmarked and writes the registers and the cycles alone. -/
theorem noStepChangesTheConfiguration : Obligations.NoStepChangesTheConfiguration := by
  intro s t h
  obtain ⟨hmark, -⟩ := step_next_cases h
  obtain ⟨r, rfl⟩ := step_next_eq_withRegs h
  exact ⟨rfl, hmark, List.length_tail⟩

end Sys2Proof.Machine
end

section
/-! PROOF. The state of reset (10_state.md R30). -/

namespace Sys2Proof.Machine

open Safety

@[simp] theorem State.resetAt_cfg (cfg : Config) : (State.resetAt cfg).cfg = cfg := rfl
@[simp] theorem State.resetAt_regs (cfg : Config) : (State.resetAt cfg).regs = Regs.zero cfg := rfl
@[simp] theorem State.resetAt_refusedMark (cfg : Config) : (State.resetAt cfg).refusedMark = false := rfl

@[simp] theorem dataField_zero (cfg : Config) : dataField cfg 0 = 0#cfg.vecBits := BitVec.setWidth_zero _ 128

/-- SETP with data 0 writes the registers of reset and nothing else (R30, R85). -/
theorem exec_setp_zero (s : State) : exec (.setp 0) s = .next (s.withRegs (Regs.zero s.cfg)) := by
  simp only [exec, execSetp, dataField_zero, startFold, Regs.zero]

/-- While `rst` is 1 the block is not ready; otherwise READY_POLICY chooses (R9, R130). -/
theorem PortCycle.cmdReady_eq_ite {n : Nat} (c : PortCycle n) :
    c.cmdReady = if c.rst then false else c.readyChoice := by
  unfold PortCycle.cmdReady
  cases c.rst <;> rfl

/-- Settles O34: the state of reset has the zero registers, which are also those SETP 0 writes. -/
theorem resetLeavesZeroInEveryRegister : Obligations.ResetLeavesZeroInEveryRegister := by
  refine fun cfg => ⟨?_, PortCycle.cmdReady_eq_ite, fun r mark cs => exec_setp_zero _⟩
  simp [State.accQ, State.vecQ]

/-- In every configuration the state of reset meets the invariant: it is unmarked and its ACC is 0. -/
theorem zeroVecHasZeroAcc_resetAt (cfg : Config) : ZeroVecHasZeroAcc (State.resetAt cfg) :=
  ⟨State.resetAt_refusedMark cfg, fun _ => Regs.zero_acc cfg⟩

/-- Settles O45: `State.reset` is the state of reset in the reference configuration. -/
theorem resetHasZeroVecWithZeroAcc : Obligations.ResetHasZeroVecWithZeroAcc := by
  refine ⟨⟨zeroVecHasZeroAcc_resetAt Config.reference, ?_⟩, fun cfg => ⟨zeroVecHasZeroAcc_resetAt cfg, ?_⟩⟩
  · simp [State.reset]
  · exact ⟨Regs.zero_vec cfg, Regs.zero_acc cfg⟩

end Sys2Proof.Machine
end

section
/-! PROOF. A command and its word determine each other (20_memory.md R43; 30_encoding.md R61, R62, R65, R67). -/

namespace Sys2Proof

/-- The one check made of a command is that its operand fits in W_I bits, whichever command it is (R63, R65). -/
theorem wellFormed_iff (cfg : Config) (i : Instr) : i.wellFormed cfg = true ↔ i.data.toNat < 2 ^ cfg.vecBits := by
  cases i <;> exact decide_eq_true_iff

/-- A command has no more than its opcode and its operand (R61). -/
theorem eq_of_op_of_data {i j : Instr} (hop : i.op = j.op) (hdata : i.data = j.data) : i = j := by
  cases i <;> cases j <;> simp [Instr.op, Instr.data] at hop hdata ⊢ <;> exact hdata

/-- The word of a well-formed command is `4 * operand + op`: the operand loses no bit, the opcode is below it (R67). -/
theorem encode_toNat {cfg : Config} {i : Instr} (h : i.wellFormed cfg = true) :
    (encode cfg i).toNat = 4 * i.data.toNat + i.op.toNat := by
  have hd : i.data.toNat < 2 ^ cfg.vecBits := (wellFormed_iff cfg i).mp h
  have hpow : 2 ^ cfg.cmdBits = 4 * 2 ^ cfg.vecBits := by rw [Nat.pow_add, Nat.mul_comm]
  have hop : i.op.toNat < 2 ^ 2 := i.op.isLt
  have hshift : i.data.toNat <<< 2 = 4 * i.data.toNat := by rw [Nat.shiftLeft_eq, Nat.mul_comm]
  have hword : i.data.toNat % 2 ^ cfg.cmdBits = i.data.toNat := Nat.mod_eq_of_lt (by omega)
  calc (encode cfg i).toNat
      = i.data.toNat <<< 2 ||| i.op.toNat := by
        rw [encode, BitVec.toNat_or, BitVec.toNat_shiftLeft, BitVec.toNat_setWidth_of_le (Nat.le_add_left 2 _),
          BitVec.toNat_setWidth, hword, Nat.mod_eq_of_lt (by omega)]
    _ = i.data.toNat <<< 2 + i.op.toNat := (Nat.shiftLeft_add_eq_or_of_lt hop _).symm
    _ = 4 * i.data.toNat + i.op.toNat := by rw [hshift]

/-- Every word decodes to a well-formed command (R65). -/
theorem decode_wellFormed (cfg : Config) (w : BitVec cfg.cmdBits) : (decode cfg w).wellFormed cfg = true := by
  rw [wellFormed_iff, decode_data_toNat, ← dataBits_toNat]
  exact (dataBits cfg w).isLt

/-- Every word is the encoding of the command it decodes to (R61, R65). -/
theorem encode_decode (cfg : Config) (w : BitVec cfg.cmdBits) : encode cfg (decode cfg w) = w := by
  apply BitVec.eq_of_toNat_eq
  rw [encode_toNat (decode_wellFormed cfg w), decode_data_toNat, decode_op, opField_toNat]
  exact Nat.div_add_mod w.toNat 4

/-- Decoding gives a well-formed command back from its word (R61, R64). -/
theorem decode_encode {cfg : Config} {i : Instr} (h : i.wellFormed cfg = true) : decode cfg (encode cfg i) = i := by
  have hop : i.op.toNat < 4 := i.op.isLt
  apply eq_of_op_of_data <;> apply BitVec.eq_of_toNat_eq
  · rw [decode_op, opField_toNat, encode_toNat h]
    omega
  · rw [decode_data_toNat, encode_toNat h]
    omega

/-- A word decodes to exactly the well-formed command that encodes to it. -/
theorem decode_eq_iff (cfg : Config) (w : BitVec cfg.cmdBits) (i : Instr) :
    decode cfg w = i ↔ i.wellFormed cfg = true ∧ encode cfg i = w := by
  constructor
  · rintro rfl
    exact ⟨decode_wellFormed cfg w, encode_decode cfg w⟩
  · rintro ⟨hwf, rfl⟩
    exact decode_encode hwf

/-- A number of at most W_C bits is read as the command of its word (log 5). -/
theorem decodeNumber_of_lt {cfg : Config} {n : Nat} (h : n < 2 ^ cfg.cmdBits) :
    decodeNumber cfg n = .ok (decode cfg (BitVec.ofNat cfg.cmdBits n)) := if_pos h

/-- A number with a bit at or above W_C is rejected by name (R43, R62; log 5). -/
theorem decodeNumber_of_le {cfg : Config} {n : Nat} (h : 2 ^ cfg.cmdBits ≤ n) :
    decodeNumber cfg n = .error .beyondCommandWord := if_neg (Nat.not_lt.mpr h)

/-- Settles O7: a number below 2^W_C is its word, and no encoding reaches a number above. -/
theorem aNumberDecodesToTheCommandItEncodes : Obligations.ANumberDecodesToTheCommandItEncodes := by
  intro cfg n
  obtain hn | hn := Nat.lt_or_ge n (2 ^ cfg.cmdBits)
  · rw [decodeNumber_of_lt hn]
    refine ⟨fun i => ?_, by simpa using hn⟩
    rw [Except.ok.injEq, decode_eq_iff, ← BitVec.toNat_inj, BitVec.toNat_ofNat, Nat.mod_eq_of_lt hn]
  · rw [decodeNumber_of_le hn]
    refine ⟨fun i => ⟨nofun, fun ⟨_, henc⟩ => ?_⟩, by simpa using hn⟩
    exact absurd (encode cfg i).isLt (by omega)

end Sys2Proof
end

section
/-! PROOF. Start commands issued again, and rows issued again (20_memory.md R44). -/

namespace Sys2Proof.Machine

/-- Shift-and-insert as a number: double, add the bit, drop what passes the width (R82). -/
theorem shiftInsert_toNat {n : Nat} (a : BitVec n) (p : Bool) :
    (shiftInsert a p).toNat = (2 * a.toNat + p.toNat) % 2 ^ n := by
  have hp : p.toNat < 2 ^ 1 := p.toNat_lt
  rw [shiftInsert, zextBit, BitVec.toNat_or, BitVec.toNat_shiftLeft, BitVec.toNat_setWidth, BitVec.toNat_ofBool,
    ← Nat.or_mod_two_pow, ← Nat.shiftLeft_add_eq_or_of_lt hp, Nat.shiftLeft_eq, pow_one, Nat.mul_comm]

/-- After two insertions the old bits stand two places up, the top two of them lost (R44, R82). -/
theorem shiftInsert_shiftInsert_toNat_div {n : Nat} (a : BitVec n) (p q : Bool) (hn : 2 ≤ n) :
    (shiftInsert (shiftInsert a p) q).toNat / 4 = a.toNat % 2 ^ (n - 2) := by
  have hp : p.toNat < 2 := p.toNat_lt
  have hq : q.toNat < 2 := q.toNat_lt
  have hpow : 2 ^ n = 4 * 2 ^ (n - 2) := by
    rw [show 4 = 2 ^ 2 from rfl, ← Nat.pow_add, Nat.add_sub_cancel' hn]
  calc (shiftInsert (shiftInsert a p) q).toNat / 4
      = (2 * (2 * a.toNat + p.toNat) + q.toNat) % 2 ^ n / 4 := by
        rw [shiftInsert_toNat, shiftInsert_toNat]
        simp [Nat.add_mod, Nat.mul_mod]
    _ = (2 * (2 * a.toNat + p.toNat) + q.toNat) / 4 % 2 ^ (n - 2) := by rw [hpow, Nat.mod_mul_right_div_self]
    _ = a.toNat % 2 ^ (n - 2) := by congr 1; omega

/-- The smallest legal width is 8 (R6). -/
theorem le_bits (w : Width) : 8 ≤ w.bits := by cases w <;> decide

/-- A ROW completes with its fold of the row (R87). -/
theorem exec_row (d : Operand) (s : State) :
    exec (.row d) s = .next (s.withRegs (foldRow s.regs (dataField s.cfg d))) := rfl

/-- A refused command ends the sequence it begins (R140). -/
theorem execAll_cons_refused {i : Instr} {s : State} {r : Refusal} (h : exec i s = .refused r) (is : List Instr) :
    execAll (i :: is) s = .refused r := by
  simp only [execAll, h]

/-- A command that leaves the state it answered as it is does twice what it does once. -/
theorem execAll_twice_of_fixed {i : Instr} {s t : State} (h : exec i s = .next t) (hfix : exec i t = .next t) :
    execAll [i, i] s = exec i s := by
  rw [execAll_cons_next h, execAll_cons_next hfix, h, execAll]

/-- SETP does not look at what it overwrites, so its second issue changes nothing (R44, R85). -/
theorem execAll_setp_twice (d : Operand) (s : State) : execAll [.setp d, .setp d] s = exec (.setp d) s :=
  execAll_twice_of_fixed rfl rfl

/-- SETS where W_I ≤ W_O loads both registers from its data (R86). -/
theorem exec_sets_next (d : Operand) (s : State) (h : sysEn s.cfg = true) :
    exec (.sets d) s = .next (s.withRegs (startFold (dataField s.cfg d) (widen s.cfg (dataField s.cfg d)))) := if_pos h

/-- SETS is the same twice as once: loaded again with the same values, or refused the first time (R44, R86). -/
theorem execAll_sets_twice (d : Operand) (s : State) : execAll [.sets d, .sets d] s = exec (.sets d) s := by
  obtain h | h := Nat.lt_or_ge s.cfg.accBits s.cfg.vecBits
  · have href := exec_sets_refused d s h
    rw [execAll_cons_refused href, href]
  · have hsys : sysEn s.cfg = true := (sysEn_iff s.cfg).mpr h
    exact execAll_twice_of_fixed (exec_sets_next d s hsys) (exec_sets_next d _ hsys)

/-- Two equal ROWs shift ACC two places up (R44). -/
theorem acc_div_four_of_row_twice {s t : State} {d : Operand} (h : execAll [.row d, .row d] s = .next t) :
    t.regs.acc.toNat / 4 = s.regs.acc.toNat % 2 ^ (s.cfg.accBits - 2) := by
  rw [execAll_cons_next (exec_row d s), execAll_cons_next (exec_row d _)] at h
  cases h
  exact shiftInsert_shiftInsert_toNat_div _ _ _ ((by decide : 2 ≤ 8).trans (le_bits s.cfg.wO))

/-- Where VEC = 0 and ACC = 1 a second ROW does something: one ROW leaves 2, which is not 1 shifted two places up. -/
theorem execAll_row_twice_ne_exec_row {s : State} (d : Operand) (hvec : s.regs.vec = 0#s.cfg.vecBits)
    (hacc : s.regs.acc = 1#s.cfg.accBits) : execAll [.row d, .row d] s ≠ exec (.row d) s := by
  intro h
  have hw : 8 ≤ s.cfg.accBits := le_bits s.cfg.wO
  have hone : 1 < 2 ^ (s.cfg.accBits - 2) := Nat.one_lt_two_pow (by omega)
  have htwo : 2 < 2 ^ s.cfg.accBits := (by decide : 2 < 2 ^ 8).trans_le (Nat.pow_le_pow_right (by decide) hw)
  have hold : s.regs.acc.toNat = 1 := by rw [hacc, BitVec.toNat_ofNat, Nat.mod_eq_of_lt (Nat.lt_of_succ_lt htwo)]
  have hnew : (foldRow s.regs (dataField s.cfg d)).acc.toNat = 2 := by
    rw [foldRow_acc, hvec, dot_zero_left, shiftInsert_toNat, hold]
    exact Nat.mod_eq_of_lt htwo
  have hdiv : (foldRow s.regs (dataField s.cfg d)).acc.toNat / 4 = s.regs.acc.toNat % 2 ^ (s.cfg.accBits - 2) :=
    acc_div_four_of_row_twice (h.trans (exec_row d s))
  rw [hnew, hold, Nat.mod_eq_of_lt hone] at hdiv
  exact absurd hdiv (by decide)

/-- Settles O20: a start command's registers do not depend on the old ones, and a ROW shifts ACC. -/
theorem startCommandsAreIdempotentAndRowIsNot : Obligations.StartCommandsAreIdempotentAndRowIsNot :=
  ⟨fun s d => execAll_setp_twice d s, fun s d => execAll_sets_twice d s, fun _ _ _ => rfl,
    fun _ _ _ => acc_div_four_of_row_twice,
    fun _ => ⟨{ vec := 0#_, acc := 1#_ }, 0, execAll_row_twice_ne_exec_row 0 rfl rfl⟩⟩

end Sys2Proof.Machine
end

section
/-! PROOF. The clocked block and the time-free order of its events (20_memory.md R47, R49; R130, R134, R139). -/

namespace Sys2Proof.Machine

/-- What a command makes of the registers, or that it is refused, is the same whatever the mark and the ports hold
(R98). -/
theorem exec_cases_of_regs {cfg : Config} (i : Instr) (r : Regs cfg) :
    (∃ r' : Regs cfg, ∀ mark cs, exec i ⟨cfg, r, mark, cs⟩ = .next ⟨cfg, r', mark, cs⟩) ∨
      ∀ mark cs, exec i ⟨cfg, r, mark, cs⟩ = .refused .setsNotInConfig := by
  cases i with
  | nop _ => exact .inl ⟨r, fun _ _ => rfl⟩
  | setp v => exact .inl ⟨startFold (dataField cfg v) 0#_, fun _ _ => rfl⟩
  | row d => exact .inl ⟨foldRow r (dataField cfg d), fun _ _ => rfl⟩
  | sets d =>
    obtain h | h := Nat.lt_or_ge cfg.accBits cfg.vecBits
    · exact .inr fun _ _ => exec_sets_refused d _ h
    · exact .inl ⟨startFold (dataField cfg d) (widen cfg (dataField cfg d)),
        fun _ _ => exec_sets_next d _ ((sysEn_iff cfg).mpr h)⟩

theorem hostEvent_of_reset {cfg : Config} {c : PortCycle cfg.cmdBits} (h : c.event = .reset) :
    hostEvent cfg c = some .reset := by
  simp only [hostEvent, h]

theorem hostEvent_of_hold {cfg : Config} {c : PortCycle cfg.cmdBits} (h : c.event = .hold) :
    hostEvent cfg c = none := by
  simp only [hostEvent, h]

theorem hostEvent_of_accept {cfg : Config} {c : PortCycle cfg.cmdBits} {w : BitVec cfg.cmdBits}
    (h : c.event = .accept w) : hostEvent cfg c = some (.command (decode cfg w)) := by
  simp only [hostEvent, h]

theorem execEvents_command_next {i : Instr} {s t : State} (h : exec i s = .next t) (es : List HostEvent) :
    execEvents (.command i :: es) s = execEvents es t := by
  simp only [execEvents, h]

theorem execEvents_command_refused {i : Instr} {s : State} {r : Refusal} (h : exec i s = .refused r)
    (es : List HostEvent) : execEvents (.command i :: es) s = .refused r := by
  simp only [execEvents, h]

/-- From an unmarked state the run over its cycles is the run of their events, by induction on the cycles: each edge
makes the event of its cycle, and the cycles still to come do not change what that event does. -/
theorem run_eq_execEvents {cfg : Config} (cs : List (PortCycle cfg.cmdBits)) (r : Regs cfg) :
    core.run cs.length (⟨cfg, r, false, cs⟩ : State) = execEvents (hostEvents cfg cs) ⟨cfg, r, false, []⟩ := by
  induction cs generalizing r with
  | nil => rfl
  | cons c cs ih =>
    let s : State := ⟨cfg, r, false, c :: cs⟩
    rw [List.length_cons, hostEvents]
    cases he : c.event with
    | reset =>
      rw [core_run_next (step_reset (s := s) rfl he), List.filterMap_cons_some (hostEvent_of_reset he)]
      exact ih (Regs.zero cfg)
    | hold =>
      rw [core_run_next (step_hold (s := s) rfl he), List.filterMap_cons_none (hostEvent_of_hold he)]
      exact ih r
    | accept w =>
      have hstep := step_accept (s := s) rfl he
      rw [List.filterMap_cons_some (hostEvent_of_accept he)]
      obtain ⟨r', hexec⟩ | hexec := exec_cases_of_regs (decode cfg w) r
      · rw [core_run_next (hstep.trans (hexec _ cs)), execEvents_command_next (hexec _ [])]
        exact ih r'
      · exact (core_run_refused (hstep.trans (hexec _ cs)) _).trans (execEvents_command_refused (hexec _ []) _).symm

/-- Settles O46: an unmarked state is its registers with its listed cycles. -/
theorem theClockedBlockFollowsTheAcceptedCommands : Obligations.TheClockedBlockFollowsTheAcceptedCommands := by
  rintro ⟨cfg, r, mark, cs⟩ rfl
  exact run_eq_execEvents cs r

end Sys2Proof.Machine
end


section
/-! PROOF. The opcode table and the words of commands (30_encoding.md R61, R64, R65, R67, R69). -/

namespace Sys2Proof

/-- Settles O3: the word is 4 * operand + op, and both are read back from it. -/
theorem decodeOfEncodeIsTheCommand : Obligations.DecodeOfEncodeIsTheCommand := fun _ _ => decode_encode

/-- Settles O4: no bit of a word is outside its op and data fields. -/
theorem encodeOfDecodeIsTheWord : Obligations.EncodeOfDecodeIsTheWord :=
  fun cfg w => ⟨decode_wellFormed cfg w, encode_decode cfg w⟩

/-- Settles O5: the operand fits, so the shift by two drops none of it. -/
theorem encodedWordIsOperandTimesFourPlusOp : Obligations.EncodedWordIsOperandTimesFourPlusOp :=
  fun _ _ => encode_toNat

/-- Settles O6: each worked command fits in 16 bits and has the worked word, which therefore decodes to it. -/
theorem workedEncodingsOfTheReferenceConfiguration : Obligations.WorkedEncodingsOfTheReferenceConfiguration := by
  simp only [Obligations.WorkedEncodingsOfTheReferenceConfiguration, decode_eq_iff]
  decide

/-- A row of the table, whose mask is 0x3, selects the words that are its match modulo 4 (R64). -/
theorem OpcodeRow.selects_iff {n : Nat} {r : OpcodeRow} (hr : r ∈ opcodeTable) (w : BitVec (n + 2)) :
    r.selects w = true ↔ w.toNat % 4 = r.pattern := by
  have hshape : r.mask = 2 ^ 2 - 1 ∧ r.pattern < 4 := by revert r; decide
  obtain ⟨hmask, hpattern⟩ := hshape
  have hpow : 2 ^ (n + 2) = 4 * 2 ^ n := by rw [Nat.pow_add, Nat.mul_comm]
  have hpos : 0 < 2 ^ n := Nat.two_pow_pos n
  rw [OpcodeRow.selects, beq_iff_eq, ← BitVec.toNat_inj, BitVec.toNat_and, BitVec.toNat_ofNat, BitVec.toNat_ofNat, hmask,
    Nat.mod_eq_of_lt (by omega), Nat.mod_eq_of_lt (by omega), Nat.and_two_pow_sub_one_eq_mod]

/-- The opcode of a command is the match of its own row and of no other (R64). -/
theorem filter_opcodeTable_op (i : Instr) :
    (opcodeTable.filter fun r => decide (i.op.toNat = r.pattern)).map (·.mnemonic) = [i.mnemonic] := by
  cases i <;> rfl

/-- Settles O1: the rows that select a word are those whose match is the opcode of its decoded command. -/
theorem everyWordSelectsExactlyOneCommand : Obligations.EveryWordSelectsExactlyOneCommand := by
  refine ⟨rfl, fun cfg w => ?_⟩
  have hop : (decode cfg w).op.toNat = w.toNat % 4 := by rw [decode_op, opField_toNat]
  have hrows : ∀ r ∈ opcodeTable, r.selects w = decide ((decode cfg w).op.toNat = r.pattern) := fun r hr => by
    rw [Bool.eq_iff_iff, OpcodeRow.selects_iff hr w, decide_eq_true_iff, hop]
  rw [List.filter_congr hrows, filter_opcodeTable_op]

end Sys2Proof
end

section
/-! PROOF. What the pseudo-instructions' expansions run to (30_encoding.md R68). -/

namespace Sys2Proof.Machine

/-- ROW of a W_I-bit value folds it into ACC (R87). -/
theorem exec_row_operandOf (s : State) (row : BitVec s.cfg.vecBits) :
    exec (.row (operandOf row)) s = .next (s.withRegs (foldRow s.regs row)) := by
  rw [exec_row, dataField_operandOf]

/-- Row commands fold their rows one after the other into the registers, and each completes (R47, R87). -/
theorem execAll_rows {s : State} (r : Regs s.cfg) (rows : List (BitVec s.cfg.vecBits)) :
    execAll ((rows.map operandOf).map .row) (s.withRegs r) = .next (s.withRegs (foldRows r rows)) := by
  induction rows generalizing r with
  | nil => rfl
  | cons row rows ih =>
    exact (execAll_cons_next (exec_row_operandOf (s.withRegs r) row) _).trans (ih (foldRow r row))

/-- A fold keeps the vector its start command loaded (R21). -/
theorem foldRows_startFold {cfg : Config} (v : BitVec cfg.vecBits) (initial : BitVec cfg.accBits)
    (rows : List (BitVec cfg.vecBits)) :
    foldRows (startFold v initial) rows = { vec := v, acc := (foldRows (startFold v initial) rows).acc } :=
  congrArg (Regs.mk · (foldRows (startFold v initial) rows).acc) (foldRows_vec (startFold v initial) rows)

/-- After a start command the rows fold into the registers it wrote. -/
theorem execAll_start_rows {i : Instr} {s : State} {v : BitVec s.cfg.vecBits} {initial : BitVec s.cfg.accBits}
    (h : exec i s = .next (s.withRegs (startFold v initial))) (rows : List (BitVec s.cfg.vecBits)) :
    execAll (i :: (rows.map operandOf).map .row) s =
      .next (s.withRegs { vec := v, acc := (foldRows (startFold v initial) rows).acc }) := by
  rw [execAll_cons_next h, execAll_rows, ← foldRows_startFold]

/-- SETP of a W_I-bit value starts a fold of it at 0 (R85). -/
theorem exec_setp_operandOf (s : State) (v : BitVec s.cfg.vecBits) :
    exec (.setp (operandOf v)) s = .next (s.withRegs (startFold v 0#s.cfg.accBits)) := by
  rw [exec, execSetp, dataField_operandOf]

/-- SETS of a W_I-bit value starts a fold of it at the widened value, where W_I ≤ W_O (R86). -/
theorem exec_sets_operandOf {s : State} (h : s.cfg.vecBits ≤ s.cfg.accBits) (v : BitVec s.cfg.vecBits) :
    exec (.sets (operandOf v)) s = .next (s.withRegs (startFold v (widen s.cfg v))) := by
  rw [exec_sets_next _ s ((sysEn_iff s.cfg).mpr h), dataField_operandOf]

/-- The product of one row is its dot product, in the lowest bit (R88). -/
theorem product_singleton (cfg : Config) (v r : BitVec cfg.vecBits) :
    product cfg v [r] = BitVec.ofNat cfg.accBits (dot v r).toNat := by
  apply BitVec.eq_of_toNat_eq
  calc (product cfg v [r]).toNat
      = (2 * (0#cfg.accBits).toNat + (dot v r).toNat) % 2 ^ cfg.accBits := shiftInsert_toNat _ _
    _ = (BitVec.ofNat cfg.accBits (dot v r).toNat).toNat := by simp

/-- Settles O23: each expansion is a start command and rows; `dot` is the product of one row. -/
theorem pseudoInstructionsRunToTheirResults : Obligations.PseudoInstructionsRunToTheirResults := by
  have productRuns (s : State) (v : BitVec s.cfg.vecBits) (rows : List (BitVec s.cfg.vecBits)) :
      execAll (Pseudo.product (operandOf v) (rows.map operandOf)).expand s =
        .next (s.withRegs { vec := v, acc := product s.cfg v rows }) :=
    execAll_start_rows (exec_setp_operandOf s v) rows
  refine ⟨fun _ _ => ⟨rfl, rfl⟩, fun _ _ => rfl, rfl, fun s v rows => ⟨productRuns s v rows, fun h => ?systematic⟩,
    fun s v r => ?dot, fun s => ?clr⟩
  case systematic => exact execAll_start_rows (exec_sets_operandOf h v) rows
  case dot => rw [← product_singleton]; exact productRuns s v [r]
  case clr => exact execAll_cons_next (exec_setp_zero s) []

end Sys2Proof.Machine
end

section
/-! PROOF. A line of a mnemonic, with an operand or without one (30_encoding.md R67). -/

namespace Sys2Proof.Machine

/-- A line's words are the encodings of the commands it is read as. -/
theorem assembleLine_of_ok {cfg : Config} {line : List Char} {is : List Instr} (h : lineCommands cfg line = .ok is) :
    assembleLine cfg line = .ok (is.map (encode cfg)) := by
  simp only [assembleLine, h]

/-- A line that is not read as commands is refused for the same reason. -/
theorem assembleLine_of_error {cfg : Config} {line : List Char} {e : AsmError} (h : lineCommands cfg line = .error e) :
    assembleLine cfg line = .error e := by
  simp only [assembleLine, h]

/-- A literal that fits in W_I bits is the operand of its value. -/
theorem operandValue_of_fits {cfg : Config} {text : List Char} {d : Operand} (h : literalValue text = .ok d.toNat)
    (hfits : d.toNat < 2 ^ cfg.vecBits) : operandValue cfg text = .ok d := by
  simp only [operandValue, h, if_pos hfits, BitVec.ofNat_toNat, BitVec.setWidth_eq]

/-- A literal that does not fit in W_I bits is refused. -/
theorem operandValue_of_tooWide {cfg : Config} {text : List Char} {n : Nat} (h : literalValue text = .ok n)
    (hwide : 2 ^ cfg.vecBits ≤ n) : operandValue cfg text = .error .operandTooWide := by
  simp only [operandValue, h, if_neg (Nat.not_lt.mpr hwide)]

/-- A minus sign makes any text a negative operand (log 14). -/
theorem operandValue_minus (cfg : Config) (text : List Char) :
    operandValue cfg ('-' :: text) = .error .negativeOperand := rfl

/-- A mnemonic with an operand that is read assembles to the command of that operand. -/
theorem assembleLine_operand {cfg : Config} {i : Instr} {text : List Char} (hplain : ∀ c ∈ text, PlainChar c)
    (hne : text ≠ []) (h : operandValue cfg text = .ok i.data) :
    assembleLine cfg (commandName i ++ ' ' :: text) = .ok [encode cfg i] := by
  have hline : lineCommands cfg (commandName i ++ ' ' :: text) = .ok [i] := by
    rw [lineCommands_one_operand cfg i text hplain hne, h]
    exact commandsOf_commandName i
  exact assembleLine_of_ok hline

/-- A mnemonic with an operand that is refused is refused for the same reason. -/
theorem assembleLine_operand_error {cfg : Config} (i : Instr) {text : List Char} {e : AsmError}
    (hplain : ∀ c ∈ text, PlainChar c) (hne : text ≠ []) (h : operandValue cfg text = .error e) :
    assembleLine cfg (commandName i ++ ' ' :: text) = .error e := by
  apply assembleLine_of_error
  rw [lineCommands_one_operand cfg i text hplain hne, h]

/-- A mnemonic with a literal that fits assembles to `(operand << 2) | op` (R67). -/
theorem assembleLine_literal {cfg : Config} {i : Instr} {text : List Char} (h : literalValue text = .ok i.data.toNat)
    (hfits : i.data.toNat < 2 ^ cfg.vecBits) :
    assembleLine cfg (commandName i ++ ' ' :: text) = .ok [encode cfg i] := by
  obtain ⟨hne, hplain⟩ := literalValue_plain text _ h
  exact assembleLine_operand hplain hne (operandValue_of_fits h hfits)

/-- The `k` binary digits of a word are read as its value modulo `2 ^ k`, below what was read before them. -/
theorem digitsValue_binaryDigits {n : Nat} (w : BitVec n) (k value : Nat) :
    digitsValue 2 value (binaryDigits w k) = .ok (value * 2 ^ k + w.toNat % 2 ^ k) := by
  induction k generalizing value with
  | zero => simp [binaryDigits, digitsValue, Nat.mod_one]
  | succ k ih =>
    have hdigit : digitValue (if w.getLsbD k then '1' else '0') = some (w.getLsbD k).toNat := by
      cases w.getLsbD k <;> rfl
    have hbit : (w.getLsbD k).toNat = w.toNat / 2 ^ k % 2 := by rw [← BitVec.testBit_toNat, Nat.toNat_testBit]
    calc digitsValue 2 value (binaryDigits w (k + 1))
        = digitsValue 2 (value * 2 + (w.getLsbD k).toNat) (binaryDigits w k) := by
          simp only [binaryDigits, digitsValue, hdigit, if_pos (w.getLsbD k).toNat_lt]
      _ = .ok ((value * 2 + (w.getLsbD k).toNat) * 2 ^ k + w.toNat % 2 ^ k) := ih _
      _ = .ok (value * 2 ^ (k + 1) + w.toNat % 2 ^ (k + 1)) := by
          rw [hbit, Nat.mod_pow_succ]
          congr 1
          ring

/-- The binary literal of W_I digits of an operand that fits has the operand's value (R13). -/
theorem literalValue_binaryDigits {cfg : Config} {d : Operand} (h : d.toNat < 2 ^ cfg.vecBits) :
    literalValue ('0' :: 'b' :: binaryDigits d cfg.vecBits) = .ok d.toNat := by
  have hpos : 8 ≤ cfg.vecBits := le_bits cfg.wI
  obtain ⟨k, hk⟩ : ∃ k, cfg.vecBits = k + 1 := ⟨cfg.vecBits - 1, by omega⟩
  calc literalValue ('0' :: 'b' :: binaryDigits d cfg.vecBits)
      = digitsValue 2 0 (binaryDigits d cfg.vecBits) := by rw [hk]; rfl
    _ = .ok d.toNat := by rw [digitsValue_binaryDigits, Nat.mod_eq_of_lt h, Nat.zero_mul, Nat.zero_add]

/-- Settles O51: a literal and a text of a minus sign and a literal are one operand, which decides the line. -/
theorem aSourceLineAssemblesToItsWord : Obligations.ASourceLineAssemblesToItsWord := by
  refine ⟨fun i => by cases i <;> rfl, fun cfg => ⟨fun i text h hfits => ?fits, fun i text n h hwide => ?tooWide,
    fun i text n h => ?negative, fun i h => ?canonical, fun _ _ => operandValue_of_tooWide, operandValue_minus cfg⟩⟩
  case fits => exact ⟨assembleLine_literal h hfits, encode_toNat ((wellFormed_iff cfg i).mpr hfits)⟩
  case tooWide =>
    obtain ⟨hne, hplain⟩ := literalValue_plain text n h
    exact assembleLine_operand_error i hplain hne (operandValue_of_tooWide h hwide)
  case negative =>
    obtain ⟨-, hplain⟩ := literalValue_plain text n h
    have hminus : PlainChar '-' := by simp [PlainChar, isBlank]
    exact assembleLine_operand_error i (List.forall_mem_cons.mpr ⟨hminus, hplain⟩) (List.cons_ne_nil _ _)
      (operandValue_minus cfg text)
  case canonical =>
    have hfits : i.data.toNat < 2 ^ cfg.vecBits := (wellFormed_iff cfg i).mp h
    exact assembleLine_literal (literalValue_binaryDigits hfits) hfits

/-- Only the text before the first `;` of a line is read (R67). -/
theorem takeWhile_append_comment (line comment : List Char) :
    (line ++ ';' :: comment).takeWhile (· ≠ ';') = line.takeWhile (· ≠ ';') := by
  induction line with
  | nil => rfl
  | cons c line ih => simp only [List.cons_append, List.takeWhile_cons, ih]

/-- A comment changes nothing of what its line assembles to (R67). -/
theorem assembleLine_append_comment (cfg : Config) (line comment : List Char) :
    assembleLine cfg (line ++ ';' :: comment) = assembleLine cfg line := by
  rw [assembleLine, assembleLine, lineCommands, lineCommands, takeWhile_append_comment]

/-- A line of a name alone is read as the name without operands. -/
theorem lineCommands_name (cfg : Config) {line name : List Char} (hne : name ≠ []) (hplain : ∀ c ∈ name, PlainChar c)
    (h : trimBlanks (line.takeWhile (· ≠ ';')) = name) : lineCommands cfg line = commandsOf name [] := by
  have hblank : ∀ c ∈ name, (!isBlank c) = true := fun c hc => by rw [(hplain c hc).1]; rfl
  have htake : name.takeWhile (fun c => !isBlank c) = name := List.takeWhile_eq_self_iff.mpr hblank
  have hdrop : name.dropWhile (fun c => !isBlank c) = [] := List.dropWhile_eq_nil_iff.mpr hblank
  obtain ⟨c, cs, rfl⟩ := List.exists_cons_of_ne_nil hne
  rw [lineCommands, h]
  simp only [htake, hdrop]
  rfl

/-- A line of a mnemonic alone, with a space after it or not, is read as the mnemonic without operands. -/
theorem lineCommands_commandName (cfg : Config) (i : Instr) :
    lineCommands cfg (commandName i) = commandsOf (commandName i) [] ∧
      lineCommands cfg (commandName i ++ [' ']) = commandsOf (commandName i) [] := by
  obtain ⟨hne, hplain⟩ := commandName_plain i
  exact ⟨lineCommands_name cfg hne hplain (by cases i <;> rfl), lineCommands_name cfg hne hplain (by cases i <;> rfl)⟩

/-- Every mnemonic but `nop` needs its operand (R67). -/
theorem commandsOf_missingOperand (i : Instr) (h : i.op ≠ 0b00) :
    commandsOf (commandName i) [] = .error .missingOperand := by
  cases i with
  | nop _ => exact absurd rfl h
  | setp _ | sets _ | row _ => rfl

/-- Settles O52: a comment is not read, and what is left of the line is a mnemonic alone. -/
theorem commentsAndOperandsLeftOut : Obligations.CommentsAndOperandsLeftOut := by
  intro cfg
  have hsplit (name comment : List Char) : name ++ ' ' :: ';' :: comment = (name ++ [' ']) ++ ';' :: comment := by simp
  refine ⟨assembleLine_append_comment cfg, fun d => ?_, fun d comment => ?_, fun i h => ?_, fun i comment h => ?_, rfl⟩
  · exact assembleLine_of_ok (lineCommands_commandName cfg (.nop d)).1
  · rw [hsplit, assembleLine_append_comment]
    exact assembleLine_of_ok (lineCommands_commandName cfg (.nop d)).2
  · apply assembleLine_of_error
    rw [(lineCommands_commandName cfg i).1, commandsOf_missingOperand i h]
  · rw [hsplit, assembleLine_append_comment]
    apply assembleLine_of_error
    rw [(lineCommands_commandName cfg i).2, commandsOf_missingOperand i h]

end Sys2Proof.Machine
end

section
/-! PROOF. The lines of the pseudo-instructions (30_encoding.md R68). -/

namespace Sys2Proof.Machine

/-- A text is cut into one part at least. -/
theorem splitOn_ne_nil (sep : Char) (text : List Char) : splitOn sep text ≠ [] := by
  cases text with
  | nil => exact List.cons_ne_nil _ _
  | cons c text =>
    simp only [splitOn]
    split
    · exact List.cons_ne_nil _ _
    · split <;> exact List.cons_ne_nil _ _

/-- A character that is no separator belongs to the first part. -/
theorem splitOn_cons_of_ne {sep c : Char} {text part : List Char} {parts : List (List Char)} (hc : c ≠ sep)
    (h : splitOn sep text = part :: parts) : splitOn sep (c :: text) = (c :: part) :: parts := by
  simp only [splitOn, if_neg hc, h]

/-- A text without the separator is its one part. -/
theorem splitOn_of_notMem {sep : Char} {text : List Char} (h : sep ∉ text) : splitOn sep text = [text] := by
  induction text with
  | nil => rfl
  | cons c text ih =>
    rw [List.mem_cons, not_or] at h
    obtain ⟨hc, htext⟩ := h
    exact splitOn_cons_of_ne (Ne.symm hc) (ih htext)

/-- The text before the first separator is the first part. -/
theorem splitOn_append_separator {sep : Char} {text : List Char} (h : sep ∉ text) (rest : List Char) :
    splitOn sep (text ++ sep :: rest) = text :: splitOn sep rest := by
  induction text with
  | nil => exact if_pos rfl
  | cons c text ih =>
    rw [List.mem_cons, not_or] at h
    obtain ⟨hc, htext⟩ := h
    exact splitOn_cons_of_ne (Ne.symm hc) (ih htext)

/-- A space before a text is trimmed. -/
theorem trimBlanks_space (text : List Char) : trimBlanks (' ' :: text) = trimBlanks text := rfl

/-- A space before a text belongs to its first part, where it is trimmed (log 14). -/
theorem map_trimBlanks_splitOn_space (text : List Char) :
    (splitOn ',' (' ' :: text)).map trimBlanks = (splitOn ',' text).map trimBlanks := by
  obtain ⟨part, parts, h⟩ := List.exists_cons_of_ne_nil (splitOn_ne_nil ',' text)
  rw [splitOn_cons_of_ne (by decide) h, h, List.map_cons, List.map_cons, trimBlanks_space]

/-- A text that is one operand of a line: plain characters, at least one. -/
def OperandText (text : List Char) : Prop := text ≠ [] ∧ ∀ c ∈ text, PlainChar c

/-- Operands as a line writes them: a comma and a space between two (R68). -/
def joinOperands (texts : List (List Char)) : List Char := List.intercalate [',', ' '] texts

@[simp] theorem joinOperands_singleton (text : List Char) : joinOperands [text] = text :=
  List.intercalate_singleton

@[simp] theorem joinOperands_cons_cons (text text' : List Char) (texts : List (List Char)) :
    joinOperands (text :: text' :: texts) = text ++ ',' :: ' ' :: joinOperands (text' :: texts) := by
  simp [joinOperands, List.intercalate_cons_cons]

theorem OperandText.comma_notMem {text : List Char} (h : OperandText text) : ',' ∉ text :=
  fun hc => (h.2 _ hc).2.1 rfl

theorem OperandText.trimBlanks_eq {text : List Char} (h : OperandText text) : trimBlanks text = text :=
  trimBlanks_of_plain text h.2

/-- Joined operands are cut back into the operands. -/
theorem map_trimBlanks_splitOn_joinOperands {text : List Char} {texts : List (List Char)}
    (h : ∀ t ∈ text :: texts, OperandText t) :
    (splitOn ',' (joinOperands (text :: texts))).map trimBlanks = text :: texts := by
  induction texts generalizing text with
  | nil =>
    have htext : OperandText text := h text List.mem_cons_self
    rw [joinOperands_singleton, splitOn_of_notMem htext.comma_notMem, List.map_singleton, htext.trimBlanks_eq]
  | cons text' texts ih =>
    obtain ⟨htext, htexts⟩ := List.forall_mem_cons.mp h
    rw [joinOperands_cons_cons, splitOn_append_separator htext.comma_notMem, List.map_cons, htext.trimBlanks_eq,
      map_trimBlanks_splitOn_space, ih htexts]

/-- A text that a line's comment and trimming leave as it is: at least one character, no `;`, no blank at either end. -/
structure Untrimmed (text : List Char) : Prop where
  ne_nil : text ≠ []
  no_comment : ∀ c ∈ text, c ≠ ';'
  head : ∀ c, text.head? = some c → isBlank c = false
  last : ∀ c, text.getLast? = some c → isBlank c = false

theorem OperandText.untrimmed {text : List Char} (h : OperandText text) : Untrimmed text where
  ne_nil := h.1
  no_comment c hc := (h.2 c hc).2.2
  head c hc := (h.2 c (List.mem_of_mem_head? hc)).1
  last c hc := (h.2 c (List.mem_of_getLast? hc)).1

/-- Two such texts with a comma and a space between them are one. -/
theorem Untrimmed.comma {text rest : List Char} (h : Untrimmed text) (hrest : Untrimmed rest) :
    Untrimmed (text ++ ',' :: ' ' :: rest) where
  ne_nil := List.append_ne_nil_of_left_ne_nil h.ne_nil _
  no_comment c hc := by
    simp only [List.mem_append, List.mem_cons] at hc
    obtain hc | rfl | rfl | hc := hc
    · exact h.no_comment c hc
    · decide
    · decide
    · exact hrest.no_comment c hc
  head c hc := by
    rw [List.head?_append_of_ne_nil _ h.ne_nil] at hc
    exact h.head c hc
  last c hc := by
    rw [List.append_cons, List.append_cons, List.getLast?_append_of_ne_nil _ hrest.ne_nil] at hc
    exact hrest.last c hc

theorem untrimmed_joinOperands {text : List Char} {texts : List (List Char)} (h : ∀ t ∈ text :: texts, OperandText t) :
    Untrimmed (joinOperands (text :: texts)) := by
  induction texts generalizing text with
  | nil =>
    rw [joinOperands_singleton]
    exact (h text List.mem_cons_self).untrimmed
  | cons text' texts ih =>
    obtain ⟨htext, htexts⟩ := List.forall_mem_cons.mp h
    rw [joinOperands_cons_cons]
    exact htext.untrimmed.comma (ih htexts)

/-- The operand texts of a line are those it joins, whatever their number (R68). -/
theorem operandTexts_joinOperands {text : List Char} {texts : List (List Char)}
    (h : ∀ t ∈ text :: texts, OperandText t) : operandTexts (' ' :: joinOperands (text :: texts)) = text :: texts := by
  have hjoin := untrimmed_joinOperands h
  have htrim : trimBlanks (' ' :: joinOperands (text :: texts)) = joinOperands (text :: texts) := by
    rw [trimBlanks_space, trimBlanks_of_ends _ hjoin.head hjoin.last]
  obtain ⟨c, cs, hcs⟩ := List.exists_cons_of_ne_nil hjoin.ne_nil
  rw [operandTexts, htrim, hcs]
  simp only [← hcs]
  exact map_trimBlanks_splitOn_joinOperands h

/-- The text is a literal of the operand's value, and the value fits in W_I bits. -/
def IsLiteralOf (cfg : Config) (text : List Char) (d : Operand) : Prop :=
  literalValue text = .ok d.toNat ∧ d.toNat < 2 ^ cfg.vecBits

/-- Literals that fit are read as the operands of their values, in order. -/
theorem operandValues_of_literals {cfg : Config} {texts : List (List Char)} {ds : List Operand}
    (h : List.Forall₂ (IsLiteralOf cfg) texts ds) : operandValues cfg texts = .ok ds := by
  induction h with
  | nil => rfl
  | cons hd _ ih =>
    obtain ⟨hvalue, hfits⟩ := hd
    simp only [operandValues, operandValue_of_fits hvalue hfits, ih]

theorem operandText_of_literals {cfg : Config} {texts : List (List Char)} {ds : List Operand}
    (h : List.Forall₂ (IsLiteralOf cfg) texts ds) : ∀ t ∈ texts, OperandText t := by
  induction h with
  | nil => exact List.forall_mem_nil _
  | cons hd _ ih => exact List.forall_mem_cons.mpr ⟨literalValue_plain _ _ hd.1, ih⟩

/-- The name of a pseudo-instruction is plain characters, and at least one. -/
theorem pseudoName_plain (p : Pseudo) : pseudoName p ≠ [] ∧ ∀ c ∈ pseudoName p, PlainChar c := by
  cases p <;> simp [pseudoName, PlainChar, isBlank]

/-- A pseudo-instruction's name with its operands as literals assembles to the words of its expansion (R68). -/
theorem assembleLine_pseudo {cfg : Config} {p : Pseudo} {texts : List (List Char)} {ds : List Operand}
    (h : List.Forall₂ (IsLiteralOf cfg) texts ds) (hne : ds ≠ []) (hp : commandsOf (pseudoName p) ds = .ok p.expand) :
    assembleLine cfg (pseudoName p ++ ' ' :: joinOperands texts) = .ok (p.expand.map (encode cfg)) := by
  obtain ⟨hname, hplain⟩ := pseudoName_plain p
  have htexts := operandText_of_literals h
  have hvalues := operandValues_of_literals h
  cases h with
  | nil => exact absurd rfl hne
  | cons =>
    have hjoin := untrimmed_joinOperands htexts
    apply assembleLine_of_ok
    rw [lineCommands_name_space cfg _ _ hname hplain hjoin.no_comment hjoin.last hjoin.ne_nil,
      operandTexts_joinOperands htexts, hvalues]
    exact hp

/-- Settles O53: each line is a name with its operands, and the name's commands are the expansion. -/
theorem pseudoInstructionLinesAssembleToTheirExpansions :
    Obligations.PseudoInstructionLinesAssembleToTheirExpansions := by
  refine ⟨fun _ _ _ => ⟨rfl, rfl, rfl, rfl⟩, fun cfg => ⟨fun texts v rows h => ⟨?product, ?systematic⟩,
    fun t u v r ht hv hu hr => ?dot, ?clr⟩⟩
  case product =>
    have hline := assembleLine_pseudo h (List.cons_ne_nil v rows) (commandsOf_product v rows)
    rw [Pseudo.expand, List.map_cons, List.map_map] at hline
    exact hline
  case systematic =>
    have hline := assembleLine_pseudo h (List.cons_ne_nil v rows) (commandsOf_systematic v rows)
    rw [Pseudo.expand, List.map_cons, List.map_map] at hline
    exact hline
  case dot =>
    have hoperands : List.Forall₂ (IsLiteralOf cfg) [t, u] [v, r] := .cons ⟨ht, hv⟩ (.cons ⟨hu, hr⟩ .nil)
    have hline := assembleLine_pseudo hoperands (List.cons_ne_nil v [r]) (commandsOf_dot v r)
    simpa [Pseudo.expand] using hline
  case clr =>
    obtain ⟨hname, hplain⟩ := pseudoName_plain .clr
    apply assembleLine_of_ok (is := Pseudo.clr.expand)
    rw [lineCommands_name cfg hname hplain rfl, commandsOf_clr]

end Sys2Proof.Machine
end

section
/-! PROOF. A source text, line by line (30_encoding.md R67). -/

namespace Sys2Proof.Machine

theorem assembleLines_cons_ok {cfg : Config} {line : List Char} {ws : List (BitVec cfg.cmdBits)}
    (h : assembleLine cfg line = .ok ws) (lines : List (List Char)) :
    assembleLines cfg (line :: lines) = (assembleLines cfg lines).map (ws ++ ·) := by
  simp only [assembleLines, h]
  cases assembleLines cfg lines <;> rfl

theorem assembleLines_cons_error {cfg : Config} {line : List Char} {e : AsmError} (h : assembleLine cfg line = .error e)
    (lines : List (List Char)) : assembleLines cfg (line :: lines) = .error e := by
  simp only [assembleLines, h]

/-- The first line that assembles puts its words before those of the text after it. -/
theorem assemble_line_ok {cfg : Config} {line : List Char} {ws : List (BitVec cfg.cmdBits)} (hline : '\n' ∉ line)
    (h : assembleLine cfg line = .ok ws) (rest : List Char) :
    assemble cfg (line ++ '\n' :: rest) = (assemble cfg rest).map (ws ++ ·) := by
  rw [assemble, splitOn_append_separator hline, assembleLines_cons_ok h, ← assemble]

/-- A refused first line refuses the text, whatever comes after it (log 14). -/
theorem assemble_line_error {cfg : Config} {line : List Char} {e : AsmError} (hline : '\n' ∉ line)
    (h : assembleLine cfg line = .error e) (rest : List Char) :
    assemble cfg (line ++ '\n' :: rest) = .error e := by
  rw [assemble, splitOn_append_separator hline, assembleLines_cons_error h]

/-- A text of one line that assembles is that line's words. -/
theorem assemble_last_line {cfg : Config} {line : List Char} {ws : List (BitVec cfg.cmdBits)} (hline : '\n' ∉ line)
    (h : assembleLine cfg line = .ok ws) : assemble cfg line = .ok ws := by
  rw [assemble, splitOn_of_notMem hline, assembleLines_cons_ok h]
  simp [assembleLines, Except.map]

/-- The line is one line and assembles to the words. -/
def LineOf (cfg : Config) (line : List Char) (ws : List (BitVec cfg.cmdBits)) : Prop :=
  '\n' ∉ line ∧ assembleLine cfg line = .ok ws

/-- Lines that assemble, with line feeds between them, assemble to their words in order. -/
theorem assemble_lines {cfg : Config} {lines : List (List Char)} {words : List (List (BitVec cfg.cmdBits))}
    (h : List.Forall₂ (LineOf cfg) lines words) :
    assemble cfg (List.intercalate ['\n'] lines) = .ok words.flatten := by
  induction h with
  | nil => rfl
  | @cons line ws lines words hd htail ih =>
    obtain ⟨hline, hws⟩ := hd
    cases htail with
    | nil => simpa using assemble_last_line hline hws
    | cons =>
      rw [List.intercalate_cons_cons, List.append_assoc, List.singleton_append, assemble_line_ok hline hws, ih]
      rfl

/-- The first refused line refuses the text, whatever assembles before it. -/
theorem assemble_first_error {cfg : Config} {lines : List (List Char)} {words : List (List (BitVec cfg.cmdBits))}
    (h : List.Forall₂ (LineOf cfg) lines words) {bad : List Char} {e : AsmError} (hbad : '\n' ∉ bad)
    (he : assembleLine cfg bad = .error e) (rest : List Char) :
    assemble cfg ((lines.map fun line => line ++ ['\n']).flatten ++ bad ++ '\n' :: rest) = .error e := by
  induction h with
  | nil => exact assemble_line_error hbad he rest
  | @cons line ws lines words hd _ ih =>
    obtain ⟨hline, hws⟩ := hd
    have hfirst : ((line :: lines).map fun line => line ++ ['\n']).flatten ++ bad ++ '\n' :: rest =
        line ++ '\n' :: ((lines.map fun line => line ++ ['\n']).flatten ++ bad ++ '\n' :: rest) := by simp
    rw [hfirst, assemble_line_ok hline hws, ih, Except.map]

/-- Settles O54, both parts by induction on the lines that assemble. -/
theorem aProgramAssemblesLineByLine : Obligations.AProgramAssemblesLineByLine :=
  fun _ => ⟨fun _ _ => assemble_lines, fun _ _ _ rest _ h hbad he => assemble_first_error h hbad he rest⟩

end Sys2Proof.Machine
end

section
/-! PROOF. What every step keeps: VEC = 0 only with ACC = 0 (40_commands.md R84 to R87; R130, R133). -/

namespace Sys2Proof.Machine

open Safety

/-- Inserting a 0 is the shift alone (R82). -/
theorem shiftInsert_false {n : Nat} (a : BitVec n) : shiftInsert a false = a <<< 1 := by
  simp [shiftInsert, zextBit]

/-- A row whose dot product with VEC is 0 shifts ACC alone (R87). -/
theorem foldRow_of_dot_false {cfg : Config} {r : Regs cfg} {row : BitVec cfg.vecBits} (h : dot r.vec row = false) :
    foldRow r row = { r with acc := r.acc <<< 1 } := by
  rw [foldRow, h, shiftInsert_false]

/-- Rows folded against the zero vector leave a zero ACC at 0 (R87, R133). -/
theorem foldRow_acc_of_zero {cfg : Config} {r : Regs cfg} (row : BitVec cfg.vecBits) (hvec : r.vec = 0#cfg.vecBits)
    (hacc : r.acc = 0#cfg.accBits) : (foldRow r row).acc = 0#cfg.accBits := by
  have hdot : dot r.vec row = false := by rw [hvec, dot_zero_left]
  rw [foldRow_of_dot_false hdot, hacc, BitVec.zero_shiftLeft]

@[simp] theorem widen_zero (cfg : Config) : widen cfg 0#cfg.vecBits = 0#cfg.accBits := BitVec.setWidth_zero _ _

/-- Each command keeps the invariant: SETP clears ACC, SETS loads both registers with one value, and a ROW against the
zero vector shifts zeros. -/
theorem exec_keeps_zeroVecHasZeroAcc {i : Instr} {s t : State} (hs : ZeroVecHasZeroAcc s) (h : exec i s = .next t) :
    ZeroVecHasZeroAcc t := by
  obtain ⟨hmark, hzero⟩ := hs
  cases i with
  | nop _ => cases h; exact ⟨hmark, hzero⟩
  | setp _ => cases h; exact ⟨hmark, fun _ => rfl⟩
  | row d =>
    cases h
    exact ⟨hmark, fun hvec => foldRow_acc_of_zero (dataField s.cfg d) hvec (hzero hvec)⟩
  | sets d =>
    obtain hw | hw := Nat.lt_or_ge s.cfg.accBits s.cfg.vecBits
    · rw [exec_sets_refused d s hw] at h; cases h
    · rw [exec_sets_next d s ((sysEn_iff s.cfg).mpr hw)] at h
      cases h
      refine ⟨hmark, fun hvec => ?_⟩
      have hdata : dataField s.cfg d = 0#s.cfg.vecBits := hvec
      simp [hdata]

/-- Settles O44: the reset edge and a waiting cycle keep the invariant, and so does the command an edge accepts. -/
theorem everyStepKeepsZeroVecWithZeroAcc : Obligations.EveryStepKeepsZeroVecWithZeroAcc := by
  intro s t hs h
  obtain ⟨hmark, ⟨-, rfl⟩ | ⟨-, rfl⟩ | ⟨w, -, hexec⟩⟩ := step_next_cases h
  · exact ⟨hmark, fun _ => rfl⟩
  · exact hs
  · exact exec_keeps_zeroVecHasZeroAcc (s := s.endCycle) hs hexec

end Sys2Proof.Machine
end

section
/-! PROOF. The dot product and shift-and-insert (40_commands.md R81, R82, R97). -/

namespace Sys2Proof.Machine

/-- The bits counted are those of the positions where the word has a 1. -/
theorem popcountBelow_eq_length_filter {n : Nat} (w : BitVec n) (k : Nat) :
    popcountBelow w k = ((List.range k).filter fun i => w.getLsbD i).length := by
  induction k with
  | zero => rfl
  | succ k ih =>
    rw [popcountBelow, ih, List.range_succ, List.filter_append, List.length_append]
    cases h : w.getLsbD k <;> simp [h]

/-- The parity of a word as a number (R12). -/
theorem parity_toNat {n : Nat} (w : BitVec n) : (parity w).toNat = popcount w % 2 := by
  rw [parity]
  obtain h | h := Nat.mod_two_eq_zero_or_one (popcount w) <;> rw [h] <;> rfl

/-- The count of the bits modulo 2 is their XOR. -/
theorem popcountBelow_mod_two {n : Nat} (w : BitVec n) (k : Nat) :
    popcountBelow w k % 2 = ((List.range k).foldl (fun sum i => sum ^^ w.getLsbD i) false).toNat := by
  induction k with
  | zero => rfl
  | succ k ih =>
    rw [popcountBelow, List.range_succ, List.foldl_append, Nat.add_mod, ih, List.foldl_cons, List.foldl_nil]
    cases (List.range k).foldl (fun sum i => sum ^^ w.getLsbD i) false <;> cases w.getLsbD k <;> rfl

/-- The parity of a word is the XOR of its bits (R12). -/
theorem parity_eq_foldl {n : Nat} (w : BitVec n) :
    parity w = (List.range n).foldl (fun sum i => sum ^^ w.getLsbD i) false := by
  rw [parity, popcount, popcountBelow_mod_two]
  cases (List.range n).foldl (fun sum i => sum ^^ w.getLsbD i) false <;> rfl

/-- The dot product is the XOR over the lanes of the vector's bit times the row's, however the row's bits are given
(R81). -/
theorem dot_eq_foldl {n : Nat} (v r : BitVec n) {lane : Nat → Bool} (h : ∀ i < n, r.getLsbD i = lane i) :
    dot v r = (List.range n).foldl (fun sum i => sum ^^ (v.getLsbD i && lane i)) false := by
  rw [dot, parity_eq_foldl]
  exact List.foldl_ext _ _ _ fun sum i hi => by rw [BitVec.getLsbD_and, h i (List.mem_range.mp hi)]

/-- Settles O8: the set bits of `v & r` are counted one position after the other. -/
theorem dotIsTheXorOfTheLaneProducts : Obligations.DotIsTheXorOfTheLaneProducts := by
  refine fun n v r => ⟨dot_eq_foldl v r fun _ _ => rfl, ?_, fun v' r' h => congrArg parity h⟩
  rw [dot, parity_toNat, popcount, popcountBelow_eq_length_filter]

/-- Bits that meet in both words leave the XOR in pairs. -/
theorem popcountBelow_xor_mod_two {n : Nat} (a b : BitVec n) (k : Nat) :
    popcountBelow (a ^^^ b) k % 2 = (popcountBelow a k + popcountBelow b k) % 2 := by
  induction k with
  | zero => rfl
  | succ k ih =>
    simp only [popcountBelow, BitVec.getLsbD_xor]
    cases a.getLsbD k <;> cases b.getLsbD k <;> simp <;> omega

theorem parity_xor {n : Nat} (a b : BitVec n) : parity (a ^^^ b) = (parity a ^^ parity b) := by
  have hab := popcountBelow_xor_mod_two a b n
  rw [parity, parity, parity, popcount, popcount, popcount, hab, Nat.add_mod]
  obtain ha | ha := Nat.mod_two_eq_zero_or_one (popcountBelow a n) <;>
    obtain hb | hb := Nat.mod_two_eq_zero_or_one (popcountBelow b n) <;> rw [ha, hb] <;> rfl

/-- The dot product is linear in the vector (R93). -/
theorem dot_xor_left {n : Nat} (v w r : BitVec n) : dot (v ^^^ w) r = (dot v r ^^ dot w r) := by
  have hand : (v ^^^ w) &&& r = v &&& r ^^^ w &&& r := by
    apply BitVec.eq_of_getLsbD_eq
    intro i _
    simp [Bool.and_xor_distrib_right]
  rw [dot, hand, parity_xor, dot, dot]

/-- A word of one bit has that bit below every greater position. -/
theorem popcountBelow_twoPow {n k : Nat} (hk : k < n) (m : Nat) :
    popcountBelow (BitVec.twoPow n k) m = if k < m then 1 else 0 := by
  induction m with
  | zero => rfl
  | succ m ih =>
    rw [popcountBelow, ih, BitVec.getLsbD_twoPow]
    obtain h | rfl | h := Nat.lt_trichotomy k m
    · simp [h, Nat.ne_of_lt h, Nat.lt_succ_of_lt h]
    · simp [hk]
    · simp [Nat.ne_of_gt h, Nat.not_lt_of_gt h, Nat.not_lt.mpr (Nat.succ_le_of_lt h)]

/-- The dot product with a word of one bit is the row's bit there (R97). -/
theorem dot_twoPow_left {n k : Nat} (hk : k < n) (r : BitVec n) : dot (BitVec.twoPow n k) r = r.getLsbD k := by
  have hone : parity (BitVec.twoPow n k) = true := by rw [parity, popcount, popcountBelow_twoPow hk, if_pos hk]; rfl
  rw [dot, BitVec.twoPow_and]
  by_cases h : r.getLsbD k = true
  · rw [if_pos h, hone, h]
  · simp [h, parity, popcount]

/-- Setting a clear bit is an XOR. -/
theorem or_twoPow_eq_xor {n k : Nat} {v : BitVec n} (h : v.getLsbD k = false) :
    v ||| BitVec.twoPow n k = v ^^^ BitVec.twoPow n k := by
  apply BitVec.eq_of_getLsbD_eq
  intro i _
  rw [BitVec.getLsbD_or, BitVec.getLsbD_xor, BitVec.getLsbD_twoPow]
  obtain rfl | hne := eq_or_ne k i
  · simp [h]
  · simp [hne]

/-- A word is its bits below `m` and its bits at and above `m`. -/
theorem eq_low_xor_high {n m : Nat} (v : BitVec n) : v = (v.setWidth m).setWidth n ^^^ v >>> m <<< m := by
  apply BitVec.eq_of_getLsbD_eq
  intro i hi
  obtain h | h := Nat.lt_or_ge i m
  · simp [hi, h]
  · simp [hi, Nat.not_lt.mpr h, Nat.add_sub_cancel' h]

/-- Settles O10: both changes of the vector are XORs, and the dot product is linear in it. -/
theorem dotUsesTheFullWordWidth : Obligations.DotUsesTheFullWordWidth := by
  refine fun n v r => ⟨fun k hk hclear => ?_, fun m _ => ?_⟩
  · rw [or_twoPow_eq_xor hclear, dot_xor_left, dot_twoPow_left hk]
    cases dot v r <;> cases r.getLsbD k <;> decide
  · rw [← dot_xor_left, ← eq_low_xor_high]

/-- The bits below the top one with a bit put below them, as a number (R82). -/
theorem append_ofBool_toNat {n : Nat} (hn : 0 < n) (a : BitVec n) (p : Bool) :
    (a.extractLsb' 0 (n - 1) ++ BitVec.ofBool p).toNat = (2 * a.toNat + p.toNat) % 2 ^ n := by
  have hp : p.toNat < 2 ^ 1 := p.toNat_lt
  have hpow : 2 ^ n = 2 * 2 ^ (n - 1) := by rw [← Nat.pow_succ', Nat.succ_eq_add_one, Nat.sub_add_cancel hn]
  have hbit : (2 * a.toNat + p.toNat) % 2 = p.toNat := by omega
  have hrest : (2 * a.toNat + p.toNat) / 2 = a.toNat := by omega
  rw [BitVec.toNat_append, BitVec.extractLsb'_toNat, BitVec.toNat_ofBool, Nat.shiftRight_zero,
    ← Nat.shiftLeft_add_eq_or_of_lt hp, Nat.shiftLeft_eq, hpow, Nat.mod_mul, hbit, hrest]
  omega

/-- Settles O9: the second and the third form are one number, that of the first (shiftInsert_toNat). -/
theorem shiftInsertFormsAgree : Obligations.ShiftInsertFormsAgree := by
  refine fun w a p => ⟨rfl, ?_, shiftInsert_toNat a p⟩
  rw [shiftInsert_toNat, append_ofBool_toNat (Nat.lt_of_lt_of_le (by decide) (le_bits w))]

end Sys2Proof.Machine
end

section
/-! PROOF. The four commands, from the constructor and from every word (40_commands.md R83 to R87, R98). -/

namespace Sys2Proof.Machine

/-- A word whose masked bits are the opcode of a command with its data field is decoded to that command (R64). -/
theorem decode_eq_of_mask {cfg : Config} {w : BitVec cfg.cmdBits} {i : Instr}
    (hdata : i.data = operandOf (dataBits cfg w))
    (h : w &&& BitVec.ofNat cfg.cmdBits 3 = BitVec.ofNat cfg.cmdBits i.op.toNat) : decode cfg w = i := by
  have hrow : (⟨i.mnemonic, 3, i.op.toNat⟩ : OpcodeRow) ∈ opcodeTable := by
    cases i <;> simp [opcodeTable, Instr.mnemonic, Instr.op]
  have hop : w.toNat % 4 = i.op.toNat := (OpcodeRow.selects_iff hrow w).mp (beq_iff_eq.mpr h)
  refine eq_of_op_of_data (BitVec.eq_of_toNat_eq ?_) ((decode_data cfg w).trans hdata.symm)
  rw [decode_op, opField_toNat, hop]

/-- NOP answers the state it was given, whatever its data (R84). -/
theorem exec_nop (d : Operand) (s : State) : exec (.nop d) s = .next s := rfl

/-- A NOP before other commands changes nothing of what they do (R84). -/
theorem execAll_nop_cons (d : Operand) (is : List Instr) (s : State) : execAll (.nop d :: is) s = execAll is s :=
  execAll_cons_next (exec_nop d s) is

/-- Settles O11: the words with op 00 are the NOPs. -/
theorem nopKeepsEveryState : Obligations.NopKeepsEveryState := by
  refine ⟨fun s d => exec_nop d s, fun s w hw => ?_, fun s a b d => ?_⟩
  · rw [decode_eq_of_mask (i := .nop (operandOf (dataBits s.cfg w))) rfl hw, exec_nop]
  · rw [execAll_cons_next (exec_row a s), execAll_nop_cons, execAll_cons_next (exec_row a s)]

/-- Settles O12: the words with op 01 are the SETPs of their data field. -/
theorem setpStartsAProductFold : Obligations.SetpStartsAProductFold := by
  refine ⟨fun s d => rfl, fun s w hw => ?_, exec_setp_zero⟩
  rw [decode_eq_of_mask (i := .setp (operandOf (dataBits s.cfg w))) rfl hw]
  exact exec_setp_operandOf s (dataBits s.cfg w)

/-- Widening is exact where W_I ≤ W_O (R63). -/
theorem widen_toNat {cfg : Config} (h : cfg.vecBits ≤ cfg.accBits) (v : BitVec cfg.vecBits) :
    (widen cfg v).toNat = v.toNat := BitVec.toNat_setWidth_of_le h

/-- Settles O13: the words with op 10 are the SETSs of their data field, which is widened exactly. -/
theorem setsStartsASystematicFold : Obligations.SetsStartsASystematicFold := by
  refine ⟨fun s d h => exec_sets_next d s ((sysEn_iff s.cfg).mpr h), fun s w h hw => ?_, fun s h => ?_⟩
  · rw [decode_eq_of_mask (i := .sets (operandOf (dataBits s.cfg w))) rfl hw]
    exact ⟨widen s.cfg (dataBits s.cfg w), exec_sets_operandOf h (dataBits s.cfg w), widen_toNat h _⟩
  · rw [exec_sets_next 0 s ((sysEn_iff s.cfg).mpr h), dataField_zero, widen_zero, exec_setp_zero]
    rfl

/-- Shift-and-insert as the word of its number (R82). -/
theorem shiftInsert_eq_ofNat {n : Nat} (a : BitVec n) (p : Bool) :
    shiftInsert a p = BitVec.ofNat n (2 * a.toNat + p.toNat) := by
  apply BitVec.eq_of_toNat_eq
  rw [shiftInsert_toNat, BitVec.toNat_ofNat]

/-- A row's register write as a number, the row's bits being given lane by lane (R87). -/
theorem foldRow_eq_ofNat {cfg : Config} (r : Regs cfg) (row : BitVec cfg.vecBits) {lane : Nat → Bool}
    (h : ∀ i < cfg.vecBits, row.getLsbD i = lane i) :
    foldRow r row =
      { r with
        acc := BitVec.ofNat cfg.accBits (2 * r.acc.toNat +
          ((List.range cfg.vecBits).foldl (fun p i => p ^^ (r.vec.getLsbD i && lane i)) false).toNat) } := by
  rw [foldRow, shiftInsert_eq_ofNat, dot_eq_foldl r.vec row h]

/-- The lanes of a command's data field are the low bits of its operand (R61). -/
theorem getLsbD_dataField {cfg : Config} (d : Operand) {i : Nat} (h : i < cfg.vecBits) :
    (dataField cfg d).getLsbD i = d.getLsbD i := by
  simp [dataField, h]

/-- The lanes of a word's data field are the word's bits two places up (R61). -/
theorem getLsbD_dataBits {cfg : Config} (w : BitVec cfg.cmdBits) {i : Nat} (h : i < cfg.vecBits) :
    (dataBits cfg w).getLsbD i = w.getLsbD (i + 2) := by
  simp [dataBits, h, Nat.add_comm]

/-- Settles O15: the words with op 11 are the ROWs of their data field, and its lanes are the word's bits from bit 2. -/
theorem rowFoldsOneRowIntoAcc : Obligations.RowFoldsOneRowIntoAcc := by
  refine ⟨fun s d => ?_, fun s w hw => ?_⟩
  · rw [exec_row, foldRow_eq_ofNat s.regs _ fun i hi => getLsbD_dataField d hi]
    rfl
  · rw [decode_eq_of_mask (i := .row (operandOf (dataBits s.cfg w))) rfl hw, exec_row_operandOf,
      foldRow_eq_ofNat s.regs _ fun i hi => getLsbD_dataBits w hi]
    rfl

/-- ROW with a data field whose dot product with VEC is 0 shifts ACC and changes nothing else (R87). -/
theorem exec_row_of_dot_false {d : Operand} {s : State} (h : dot s.regs.vec (dataField s.cfg d) = false) :
    exec (.row d) s = .next (s.withRegs { s.regs with acc := s.regs.acc <<< 1 }) := by
  rw [exec_row, foldRow_of_dot_false h]

/-- A vector of even popcount has the dot product 0 with itself (R12, R81). -/
theorem dot_self_of_even {n : Nat} {v : BitVec n}
    (h : ((List.range n).filter fun i => v.getLsbD i).length % 2 = 0) : dot v v = false := by
  rw [dot, BitVec.and_self, parity, popcount, popcountBelow_eq_length_filter, h]
  rfl

/-- All the bits of a word of ones are set, and every legal width is even (R6). -/
theorem even_popcount_allOnes (w : Width) :
    ((List.range w.bits).filter fun i => (BitVec.allOnes w.bits).getLsbD i).length % 2 = 0 := by
  have hall : ((List.range w.bits).filter fun i => (BitVec.allOnes w.bits).getLsbD i) = List.range w.bits :=
    List.filter_eq_self.mpr fun i hi => by simpa using hi
  rw [hall, List.length_range]
  cases w <;> rfl

/-- A ROW right after reset leaves the state of reset (R133). -/
theorem exec_row_resetAt (cfg : Config) (d : Operand) :
    exec (.row d) (State.resetAt cfg) = .next (State.resetAt cfg) := by
  have hfold : foldRow (Regs.zero cfg) (dataField cfg d) = Regs.zero cfg :=
    congrArg (Regs.mk 0#cfg.vecBits) (foldRow_acc_of_zero _ rfl rfl)
  exact congrArg (fun r : Regs cfg => Host.Outcome.next (⟨cfg, r, false, []⟩ : State)) hfold

/-- Settles O16: each row named first has the dot product 0, and after a start command a ROW uses what that wrote. -/
theorem rowCornerCases : Obligations.RowCornerCases := by
  refine ⟨fun s => ?zeroRow, fun s d hvec => ?zeroVec, fun s heven => ?evenRow, fun s hones => ?allOnes,
    fun cfg d => ?reset, fun s v r => ⟨?setp, fun h => ?sets⟩⟩
  case zeroRow => exact exec_row_of_dot_false (by rw [dataField_zero, dot_zero_right])
  case zeroVec => exact exec_row_of_dot_false (by rw [hvec, dot_zero_left])
  case evenRow => exact exec_row_of_dot_false (by rw [dataField_operandOf, dot_self_of_even heven])
  case allOnes =>
    refine exec_row_of_dot_false ?_
    rw [dataField_operandOf, hones, dot_self_of_even (even_popcount_allOnes s.cfg.wI)]
  case reset => exact exec_row_resetAt cfg d
  case setp =>
    rw [← product_singleton]
    exact execAll_start_rows (exec_setp_operandOf s v) [r]
  case sets =>
    have hacc : (foldRow (startFold v (widen s.cfg v)) r).acc =
        BitVec.ofNat s.cfg.accBits (2 * v.toNat + (dot v r).toNat) := by
      rw [foldRow_acc, startFold_acc, startFold_vec, shiftInsert_eq_ofNat, widen_toNat h]
    rw [← hacc]
    exact execAll_start_rows (exec_sets_operandOf h v) [r]

/-- The registers a command leaves, read from those before it; none where it is refused (R84 to R87, R98). -/
def commandRegs (cfg : Config) (i : Instr) (r : Regs cfg) : Option (Regs cfg) :=
  match i with
  | .nop _ => some r
  | .setp v => some (startFold (dataField cfg v) 0#cfg.accBits)
  | .sets v => if sysEn cfg then some (startFold (dataField cfg v) (widen cfg (dataField cfg v))) else none
  | .row d => some (foldRow r (dataField cfg d))

/-- Settles O17: commandRegs is that function, and only `sets` has the refusal among its cases. -/
theorem commandsReadAndWriteOnlyVecAndAcc : Obligations.CommandsReadAndWriteOnlyVecAndAcc := by
  refine fun cfg i => ⟨commandRegs cfg i, fun r mark cs => ?_⟩
  cases i with
  | nop _ | setp _ | row _ => rfl
  | sets v =>
    obtain h | h := Nat.lt_or_ge cfg.accBits cfg.vecBits
    · have hnone : commandRegs cfg (.sets v) r = none := if_neg (by rw [sysEn_iff]; omega)
      rw [hnone]
      exact exec_sets_refused v _ h
    · have hsys : sysEn cfg = true := (sysEn_iff cfg).mpr h
      rw [show commandRegs cfg (.sets v) r = _ from if_pos hsys]
      exact exec_sets_next v _ hsys

/-- An offered word is accepted by a block that is ready (R134). -/
theorem PortCycle.offer_ready_event {n : Nat} (w : BitVec n) : (PortCycle.offer w true).event = .accept w := rfl

/-- Settles O37: the accepted word decodes to the command it encodes. -/
theorem aStepRunsTheEncodedCommand : Obligations.AStepRunsTheEncodedCommand := by
  intro s i hmark hwf
  have hstep : step (s.withCycle (.offer (encode s.cfg i) true)) = exec (decode s.cfg (encode s.cfg i)) s :=
    step_accept (s := s.withCycle (.offer (encode s.cfg i) true)) hmark (PortCycle.offer_ready_event _)
  rw [hstep, decode_encode hwf]

end Sys2Proof.Machine
end

section
/-! PROOF. The value of a fold: the initial ACC above the dot products, first row most significant, modulo 2^W_O
(40_commands.md R88 to R90, R93). -/

namespace Sys2Proof.Machine

open Safety

/-- The dot products of the rows as one number of `rows.length` bits, the first row's the most significant (R88). -/
def dotSum {n : Nat} (v : BitVec n) (rows : List (BitVec n)) : Nat :=
  ∑ j : Fin rows.length, (dot v rows[j]).toNat * 2 ^ (rows.length - 1 - j.val)

@[simp] theorem dotSum_nil {n : Nat} (v : BitVec n) : dotSum v [] = 0 := rfl

/-- One row more in front puts its bit above those of the other rows. -/
theorem dotSum_cons {n : Nat} (v row : BitVec n) (rows : List (BitVec n)) :
    dotSum v (row :: rows) = 2 ^ rows.length * (dot v row).toNat + dotSum v rows := by
  have hexp (j : Fin rows.length) : rows.length - (j.val + 1) = rows.length - 1 - j.val := by omega
  simp [dotSum, Fin.sum_univ_succ, hexp, Nat.mul_comm]

theorem dotSum_lt {n : Nat} (v : BitVec n) (rows : List (BitVec n)) : dotSum v rows < 2 ^ rows.length := by
  induction rows with
  | nil => exact Nat.one_pos
  | cons row rows ih =>
    rw [dotSum_cons, List.length_cons, Nat.pow_succ]
    cases dot v row <;> simp <;> omega

/-- Row j's dot product is bit N-1-j of the number (R91). -/
theorem testBit_dotSum {n : Nat} (v : BitVec n) (rows : List (BitVec n)) (j : Nat) (h : j < rows.length) :
    (dotSum v rows).testBit (rows.length - 1 - j) = dot v rows[j] := by
  induction rows generalizing j with
  | nil => exact absurd h (Nat.not_lt_zero j)
  | cons row rows ih =>
    rw [dotSum_cons, Nat.testBit_two_pow_mul_add _ (dotSum_lt v rows), List.length_cons, Nat.add_sub_cancel]
    cases j with
    | zero => cases hdot : dot v row <;> simp [hdot]
    | succ j =>
      have hj : j < rows.length := Nat.lt_of_succ_lt_succ h
      rw [if_pos (by omega), List.getElem_cons_succ, ← ih j hj]
      congr 1
      omega

/-- Bit i of the number is the dot product of row N-1-i (R91). -/
theorem testBit_dotSum_of_lt {n : Nat} (v : BitVec n) (rows : List (BitVec n)) {i : Nat} (h : i < rows.length) :
    (dotSum v rows).testBit i = dot v rows[rows.length - 1 - i] := by
  rw [← testBit_dotSum v rows (rows.length - 1 - i) (by omega)]
  congr 1
  omega

theorem testBit_dotSum_of_le {n : Nat} (v : BitVec n) (rows : List (BitVec n)) {i : Nat} (h : rows.length ≤ i) :
    (dotSum v rows).testBit i = false :=
  Nat.testBit_lt_two_pow ((dotSum_lt v rows).trans_le (Nat.pow_le_pow_right Nat.two_pos h))

/-- The number is linear in the vector over GF(2) (R93). -/
theorem dotSum_xor {n : Nat} (v w : BitVec n) (rows : List (BitVec n)) :
    dotSum (v ^^^ w) rows = dotSum v rows ^^^ dotSum w rows := by
  apply Nat.eq_of_testBit_eq
  intro i
  rw [Nat.testBit_xor]
  obtain h | h := Nat.lt_or_ge i rows.length
  · simp only [testBit_dotSum_of_lt _ _ h, dot_xor_left]
  · simp only [testBit_dotSum_of_le _ _ h, Bool.xor_false]

/-- What a fold without loss would hold: the initial ACC above the dot products (R88, R89). -/
def foldValue {cfg : Config} (r : Regs cfg) (rows : List (BitVec cfg.vecBits)) : Nat :=
  r.acc.toNat * 2 ^ rows.length + dotSum r.vec rows

/-- A fold holds that value modulo 2^W_O, by induction on the rows: each doubles ACC and adds its bit (R87). -/
theorem foldRows_acc_toNat {cfg : Config} (r : Regs cfg) (rows : List (BitVec cfg.vecBits)) :
    (foldRows r rows).acc.toNat = foldValue r rows % 2 ^ cfg.accBits := by
  induction rows generalizing r with
  | nil => simp [foldValue, foldRows, Nat.mod_eq_of_lt r.acc.isLt]
  | cons row rows ih =>
    have hvalue : foldValue r (row :: rows) =
        (2 * r.acc.toNat + (dot r.vec row).toNat) * 2 ^ rows.length + dotSum r.vec rows := by
      rw [foldValue, dotSum_cons, List.length_cons]
      ring
    calc (foldRows r (row :: rows)).acc.toNat
        = foldValue (foldRow r row) rows % 2 ^ cfg.accBits := ih (foldRow r row)
      _ = ((2 * r.acc.toNat + (dot r.vec row).toNat) % 2 ^ cfg.accBits * 2 ^ rows.length + dotSum r.vec rows) %
            2 ^ cfg.accBits := by rw [foldValue, foldRow_acc, foldRow_vec, shiftInsert_toNat]
      _ = foldValue r (row :: rows) % 2 ^ cfg.accBits := by rw [hvalue, Nat.add_mod, Nat.mod_mul_mod, ← Nat.add_mod]

theorem foldRows_acc_eq_ofNat {cfg : Config} (r : Regs cfg) (rows : List (BitVec cfg.vecBits)) :
    (foldRows r rows).acc = BitVec.ofNat cfg.accBits (foldValue r rows) := by
  apply BitVec.eq_of_toNat_eq
  rw [foldRows_acc_toNat, BitVec.toNat_ofNat]

/-- The bits of a fold's value: the dot products below N, the initial ACC from N on. -/
theorem testBit_mul_two_pow_add_dotSum {n : Nat} (a : Nat) (v : BitVec n) (rows : List (BitVec n)) (i : Nat) :
    (a * 2 ^ rows.length + dotSum v rows).testBit i =
      if i < rows.length then (dotSum v rows).testBit i else a.testBit (i - rows.length) := by
  rw [Nat.mul_comm, Nat.testBit_two_pow_mul_add _ (dotSum_lt v rows)]

/-- The bits of ACC after a fold, those at and above W_O lost. -/
theorem getLsbD_foldRows_acc {cfg : Config} (r : Regs cfg) (rows : List (BitVec cfg.vecBits)) (i : Nat) :
    (foldRows r rows).acc.getLsbD i =
      (decide (i < cfg.accBits) &&
        if i < rows.length then (dotSum r.vec rows).testBit i else r.acc.getLsbD (i - rows.length)) := by
  rw [foldRows_acc_eq_ofNat, BitVec.getLsbD_ofNat, foldValue, testBit_mul_two_pow_add_dotSum, BitVec.testBit_toNat]

/-- Product is the number of the dot products modulo 2^W_O (R88). -/
theorem product_eq_ofNat (cfg : Config) (v : BitVec cfg.vecBits) (rows : List (BitVec cfg.vecBits)) :
    product cfg v rows = BitVec.ofNat cfg.accBits (dotSum v rows) := by
  have hvalue : foldValue (startFold v 0#cfg.accBits) rows = dotSum v rows := by simp [foldValue]
  rw [product, foldRows_acc_eq_ofNat, hvalue]

/-- Without loss a systematic fold holds the vector above the dot products (R89). -/
theorem foldValue_widen {cfg : Config} (h : cfg.vecBits ≤ cfg.accBits) (v : BitVec cfg.vecBits)
    (rows : List (BitVec cfg.vecBits)) :
    foldValue (startFold v (widen cfg v)) rows = v.toNat * 2 ^ rows.length + dotSum v rows := by
  rw [foldValue, startFold_acc, startFold_vec, widen_toNat h]

/-- Systematic is that value modulo 2^W_O (R89). -/
theorem systematic_toNat {cfg : Config} (h : cfg.vecBits ≤ cfg.accBits) (v : BitVec cfg.vecBits)
    (rows : List (BitVec cfg.vecBits)) :
    (systematic cfg v rows).toNat = (v.toNat * 2 ^ rows.length + dotSum v rows) % 2 ^ cfg.accBits := by
  rw [systematic, foldRows_acc_toNat, foldValue_widen h]

@[simp] theorem dotSum_zero {n : Nat} (rows : List (BitVec n)) : dotSum (0#n) rows = 0 := by
  simp [dotSum]

/-- Where the vector moved up by N places fits in W_O bits, the dot products below it fit too: a vector that is not 0
leaves them N bits, and those of the zero vector are 0 (R89). -/
theorem lt_of_fitsSystematic {cfg : Config} {v : BitVec cfg.vecBits} {rows : List (BitVec cfg.vecBits)}
    (h : FitsSystematic cfg v rows.length) : v.toNat * 2 ^ rows.length + dotSum v rows < 2 ^ cfg.accBits := by
  obtain rfl | hv := eq_or_ne v 0#cfg.vecBits
  · simp
  · have hpos : 0 < v.toNat := Nat.pos_of_ne_zero fun h0 => hv (BitVec.eq_of_toNat_eq (by simpa using h0))
    have hle : rows.length ≤ cfg.accBits :=
      (Nat.pow_le_pow_iff_right Nat.one_lt_two).mp ((Nat.le_mul_of_pos_left _ hpos).trans (Nat.le_of_lt h))
    have hpow : 2 ^ cfg.accBits = 2 ^ (cfg.accBits - rows.length) * 2 ^ rows.length := by
      rw [← Nat.pow_add, Nat.sub_add_cancel hle]
    have hlt : v.toNat < 2 ^ (cfg.accBits - rows.length) := Nat.lt_of_mul_lt_mul_right (h.trans_eq hpow)
    calc v.toNat * 2 ^ rows.length + dotSum v rows
        < v.toNat * 2 ^ rows.length + 2 ^ rows.length := Nat.add_lt_add_left (dotSum_lt v rows) _
      _ = (v.toNat + 1) * 2 ^ rows.length := (Nat.succ_mul _ _).symm
      _ ≤ 2 ^ cfg.accBits := hpow ▸ Nat.mul_le_mul_right _ hlt

/-- Commands with the same effect may stand for each other after any command. -/
theorem execAll_cons_congr {is js : List Instr} (h : ∀ t, execAll is t = execAll js t) (i : Instr) (s : State) :
    execAll (i :: is) s = execAll (i :: js) s := by
  simp only [execAll, h]

/-- NOPs left out of a sequence change nothing of what it does (R84). -/
theorem execAll_filter_not_isNop (is : List Instr) (s : State) :
    execAll (is.filter fun i => !isNop i) s = execAll is s := by
  induction is generalizing s with
  | nil => rfl
  | cons i is ih =>
    cases i with
    | nop d => exact (ih s).trans (execAll_nop_cons d is s).symm
    | setp _ | sets _ | row _ => exact execAll_cons_congr ih _ s

/-- After a start command the rows fold into the registers it wrote, whatever NOPs stand between them (R88). -/
theorem execAll_start_issuesRows {i : Instr} {s : State} {v : BitVec s.cfg.vecBits} {initial : BitVec s.cfg.accBits}
    (h : exec i s = .next (s.withRegs (startFold v initial))) {is : List Instr} {rows : List (BitVec s.cfg.vecBits)}
    (hrows : IssuesRows is rows) :
    execAll (i :: is) s = .next (s.withRegs { vec := v, acc := (foldRows (startFold v initial) rows).acc }) := by
  have hfilter : (is.filter fun i => !isNop i) = (rows.map operandOf).map .row := by
    rw [List.map_map]
    exact hrows
  rw [← execAll_start_rows h, ← hfilter]
  exact execAll_cons_congr (fun t => (execAll_filter_not_isNop is t).symm) i s

/-- Settles O21: the fold of the rows from ACC = 0 is the number of their dot products. -/
theorem productIsTheMsbFirstSumOfDots : Obligations.ProductIsTheMsbFirstSumOfDots := by
  intro s v rows is hrows
  have hrun := execAll_start_issuesRows (exec_setp_operandOf s v) hrows
  rw [← product, product_eq_ofNat] at hrun
  exact hrun

/-- Settles O22: the fold of the rows from the widened vector is that vector above the number of their dot products. -/
theorem systematicIsTheVectorAboveTheDots : Obligations.SystematicIsTheVectorAboveTheDots := by
  intro s v rows is h hrows
  refine ⟨systematic s.cfg v rows, execAll_start_issuesRows (exec_sets_operandOf h v) hrows,
    systematic_toNat h v rows, fun hfits => ?_⟩
  rw [systematic_toNat h, Nat.mod_eq_of_lt (lt_of_fitsSystematic hfits), dotSum]

/-- Settles O24: with no rows ACC is what the start command wrote, and widening is exact. -/
theorem emptyRowSequences : Obligations.EmptyRowSequences :=
  fun _ v => ⟨rfl, fun h => ⟨rfl, widen_toNat h v⟩⟩

end Sys2Proof.Machine
end

section
/-! PROOF. Where the bits of a fold stand, and which are lost (40_commands.md R91 to R96; R122, R133). -/

namespace Sys2Proof.Machine

/-- Below W_O the bits of product are those of the dot products' number (R88). -/
theorem getLsbD_product (cfg : Config) (v : BitVec cfg.vecBits) (rows : List (BitVec cfg.vecBits)) {i : Nat}
    (hi : i < cfg.accBits) : (product cfg v rows).getLsbD i = (dotSum v rows).testBit i := by
  rw [product_eq_ofNat, BitVec.getLsbD_ofNat, decide_eq_true hi, Bool.true_and]

/-- Row j lands at bit N-1-j of product (R91). -/
theorem getLsbD_product_row (cfg : Config) (v : BitVec cfg.vecBits) (rows : List (BitVec cfg.vecBits)) (j : Nat)
    (h : j < rows.length) (hj : rows.length - 1 - j < cfg.accBits) :
    (product cfg v rows).getLsbD (rows.length - 1 - j) = dot v rows[j] := by
  rw [getLsbD_product cfg v rows hj, testBit_dotSum v rows j h]

/-- Bit i of product is the dot product of row N-1-i (R91, R95). -/
theorem exists_row_getLsbD_product (cfg : Config) (v : BitVec cfg.vecBits) (rows : List (BitVec cfg.vecBits)) (i : Nat)
    (h : i < rows.length) (hi : i < cfg.accBits) :
    ∃ r, rows[rows.length - 1 - i]? = some r ∧ (product cfg v rows).getLsbD i = dot v r :=
  ⟨rows[rows.length - 1 - i], List.getElem?_eq_getElem (by omega),
    by rw [getLsbD_product cfg v rows hi, testBit_dotSum_of_lt v rows h]⟩

/-- Below N the bits of systematic are the dot products, from N on the vector's (R91). -/
theorem getLsbD_systematic (cfg : Config) (v : BitVec cfg.vecBits) (rows : List (BitVec cfg.vecBits)) {i : Nat}
    (hi : i < cfg.accBits) :
    (systematic cfg v rows).getLsbD i =
      if i < rows.length then (dotSum v rows).testBit i else v.getLsbD (i - rows.length) := by
  have hrest : i - rows.length < cfg.accBits := by omega
  rw [systematic, getLsbD_foldRows_acc, decide_eq_true hi, Bool.true_and, startFold_acc, startFold_vec, widen,
    BitVec.getLsbD_setWidth, decide_eq_true hrest, Bool.true_and]

/-- A bit of a word is 0 at and above its width. -/
theorem getLsbD_eq_ite {n : Nat} (v : BitVec n) (i : Nat) :
    v.getLsbD i = if i < n then v.getLsbD i else false := by
  split
  · rfl
  · exact BitVec.getLsbD_of_ge v i (by omega)

/-- Settles O25: the bits of the two folds. -/
theorem rowsLandMsbFirst : Obligations.RowsLandMsbFirst := by
  refine fun cfg v rows => ⟨exists_row_getLsbD_product cfg v rows, getLsbD_product_row cfg v rows,
    fun i h hi => ?_, fun _ i h hi => ?_⟩
  · rw [getLsbD_product cfg v rows hi, testBit_dotSum_of_le v rows h]
  · rw [getLsbD_systematic cfg v rows hi, if_neg (Nat.not_lt.mpr h), ← getLsbD_eq_ite]

/-- A number moved up by N places has no bit in common with a number of N bits. -/
theorem ofNat_mul_two_pow_and_product (cfg : Config) (v : BitVec cfg.vecBits) (rows : List (BitVec cfg.vecBits)) :
    BitVec.ofNat cfg.accBits (v.toNat * 2 ^ rows.length) &&& product cfg v rows = 0#cfg.accBits := by
  apply BitVec.eq_of_getLsbD_eq
  intro i hi
  rw [BitVec.getLsbD_and, BitVec.getLsbD_ofNat, getLsbD_product cfg v rows hi, Nat.testBit_mul_two_pow]
  obtain h | h := Nat.lt_or_ge i rows.length
  · simp [Nat.not_le.mpr h]
  · simp [testBit_dotSum_of_le v rows h]

/-- Settles O26: the layout is a sum of two numbers without a common bit. -/
theorem systematicIdentity : Obligations.SystematicIdentity := by
  intro cfg v rows h
  have hadd : systematic cfg v rows = BitVec.ofNat cfg.accBits (v.toNat * 2 ^ rows.length) + product cfg v rows := by
    apply BitVec.eq_of_toNat_eq
    rw [systematic_toNat h, product_eq_ofNat, ← BitVec.ofNat_add, BitVec.toNat_ofNat]
  have hand := ofNat_mul_two_pow_and_product cfg v rows
  have hor := hadd.trans (BitVec.add_eq_or_of_and_eq_zero _ _ hand)
  have hshift : BitVec.ofNat cfg.accBits (v.toNat * 2 ^ rows.length) = v.setWidth cfg.accBits <<< rows.length := by
    apply BitVec.eq_of_toNat_eq
    rw [BitVec.toNat_ofNat, BitVec.toNat_shiftLeft, BitVec.toNat_setWidth_of_le h, Nat.shiftLeft_eq]
  exact ⟨hor, hand, hadd, fun _ => by rw [hor, hshift]⟩

/-- Settles O27: each bit of a fold is a dot product with the vector or a bit of the vector. -/
theorem compositeOperationsAreLinear : Obligations.CompositeOperationsAreLinear := by
  refine fun cfg v1 v2 rows => ⟨?_, fun _ => BitVec.eq_of_getLsbD_eq fun i hi => ?_⟩
  · rw [product_eq_ofNat, product_eq_ofNat, product_eq_ofNat, dotSum_xor, BitVec.ofNat_xor]
  · rw [BitVec.getLsbD_xor]
    simp only [getLsbD_systematic cfg _ rows hi, dotSum_xor, Nat.testBit_xor, BitVec.getLsbD_xor]
    split <;> rfl

/-- Settles O28: on both sides the bit is the dot product with the row the permutation puts at j. -/
theorem permutedRowsPermuteTheResultBits : Obligations.PermutedRowsPermuteTheResultBits := by
  intro cfg v n rows perm hn j
  have hbit (f : Fin n → BitVec cfg.vecBits) (k : Fin n) :
      (product cfg v (List.ofFn f)).getLsbD (n - 1 - k.val) = dot v (f k) := by
    have hland := getLsbD_product_row cfg v (List.ofFn f) k.val (by simp) (by simp; omega)
    simpa using hland
  rw [hbit, hbit]

/-- With W_O rows or more the initial ACC has no influence (R95, R96). -/
theorem foldRows_acc_eq_product {cfg : Config} (r : Regs cfg) {rows : List (BitVec cfg.vecBits)}
    (h : cfg.accBits ≤ rows.length) : (foldRows r rows).acc = product cfg r.vec rows := by
  apply BitVec.eq_of_getLsbD_eq
  intro i hi
  rw [getLsbD_foldRows_acc, getLsbD_product cfg _ _ hi, decide_eq_true hi, Bool.true_and, if_pos (by omega)]

/-- A fold goes on from the registers its first rows leave (R87). -/
theorem foldRows_append {cfg : Config} (r : Regs cfg) (rows more : List (BitVec cfg.vecBits)) :
    foldRows r (rows ++ more) = foldRows (foldRows r rows) more := List.foldl_append

/-- Rows before W_O others or more do not change the product (R95). -/
theorem product_append_of_le (cfg : Config) (v : BitVec cfg.vecBits) (rows : List (BitVec cfg.vecBits))
    {more : List (BitVec cfg.vecBits)} (h : cfg.accBits ≤ more.length) :
    product cfg v (rows ++ more) = product cfg v more := by
  rw [product, foldRows_append, foldRows_acc_eq_product _ h, foldRows_vec, startFold_vec]

/-- Settles O29: the rows before the last W_O only set the ACC the last ones start from. -/
theorem productKeepsTheLastRows : Obligations.ProductKeepsTheLastRows := by
  intro cfg v rows h
  have hpos : 8 ≤ cfg.accBits := le_bits cfg.wO
  have hbits (k : Nat) (hk : k < cfg.accBits) := exists_row_getLsbD_product cfg v rows k (hk.trans h) hk
  refine ⟨?_, ?_, hbits⟩
  · have hlast : cfg.accBits ≤ (rows.drop (rows.length - cfg.accBits)).length := by rw [List.length_drop]; omega
    rw [← product_append_of_le cfg v (rows.take (rows.length - cfg.accBits)) hlast, List.take_append_drop]
  · have htop := hbits (cfg.accBits - 1) (by omega)
    rwa [show rows.length - 1 - (cfg.accBits - 1) = rows.length - cfg.accBits by omega] at htop

/-- Bit k of the vector is at k+N after N ROWs, if that is below W_O (R96). -/
theorem getLsbD_systematic_add (cfg : Config) (v : BitVec cfg.vecBits) (rows : List (BitVec cfg.vecBits)) {k : Nat}
    (hk : k + rows.length < cfg.accBits) : (systematic cfg v rows).getLsbD (k + rows.length) = v.getLsbD k := by
  rw [getLsbD_systematic cfg v rows hk, if_neg (Nat.not_lt.mpr (Nat.le_add_left _ k)), Nat.add_sub_cancel]

/-- A bit of the initial ACC that the rows shift out has no influence (R96). -/
theorem foldRows_acc_xor_twoPow {cfg : Config} (v : BitVec cfg.vecBits) (initial : BitVec cfg.accBits)
    (rows : List (BitVec cfg.vecBits)) {k : Nat} (hk : cfg.accBits ≤ k + rows.length) :
    (foldRows (startFold v (initial ^^^ BitVec.twoPow cfg.accBits k)) rows).acc =
      (foldRows (startFold v initial) rows).acc := by
  apply BitVec.eq_of_getLsbD_eq
  intro i hi
  have hne (h : ¬ i < rows.length) : k ≠ i - rows.length := by omega
  rw [getLsbD_foldRows_acc, getLsbD_foldRows_acc]
  split
  · rfl
  · next h => simp [hne h]

/-- A number of more than `n` bits is one with a bit at `n` or above. -/
theorem two_pow_le_iff_exists_testBit (n x : Nat) : 2 ^ n ≤ x ↔ ∃ i ≥ n, x.testBit i = true := by
  constructor
  · exact Nat.exists_ge_and_testBit_of_ge_two_pow
  · rintro ⟨i, hi, hbit⟩
    exact (Nat.pow_le_pow_right Nat.two_pos hi).trans (Nat.ge_two_pow_of_testBit hbit)

/-- A set bit of a systematic fold's value at or above W_O is a vector bit or a dot product there (R96). -/
theorem exists_testBit_iff_lost (cfg : Config) (v : BitVec cfg.vecBits) (rows : List (BitVec cfg.vecBits)) :
    (∃ i ≥ cfg.accBits, (v.toNat * 2 ^ rows.length + dotSum v rows).testBit i = true) ↔
      (∃ k < cfg.vecBits, cfg.accBits ≤ k + rows.length ∧ v.getLsbD k = true) ∨
        ∃ j : Fin rows.length, cfg.accBits ≤ rows.length - 1 - j.val ∧ dot v rows[j] = true := by
  simp only [testBit_mul_two_pow_add_dotSum, BitVec.testBit_toNat]
  constructor
  · rintro ⟨i, hi, hbit⟩
    split at hbit
    · next h =>
      rw [testBit_dotSum_of_lt v rows h] at hbit
      exact .inr ⟨⟨rows.length - 1 - i, by omega⟩, by simp only; omega, hbit⟩
    · exact .inl ⟨i - rows.length, BitVec.lt_of_getLsbD hbit, by omega, hbit⟩
  · rintro (⟨k, -, hk, hbit⟩ | ⟨j, hj, hbit⟩)
    · refine ⟨k + rows.length, hk, ?_⟩
      rw [if_neg (by omega), Nat.add_sub_cancel, hbit]
    · refine ⟨rows.length - 1 - j.val, hj, ?_⟩
      rw [if_pos (by omega), testBit_dotSum v rows j.val j.isLt]
      exact hbit

/-- Settles O30: the vector's bits stand above the dot products and leave ACC first. -/
theorem systematicLosesVectorBitsFirst : Obligations.SystematicLosesVectorBitsFirst := by
  refine fun cfg v rows h => ⟨fun k _ hk => getLsbD_systematic_add cfg v rows hk,
    fun k hk => foldRows_acc_xor_twoPow v (widen cfg v) rows hk, fun n h1 hacc hrows => ?top,
    fun hN j hj => ?parity, ?lost⟩
  case top =>
    have hlen : (rows.take (n - 1)).length = n - 1 := by rw [List.length_take]; omega
    have htop := getLsbD_systematic_add cfg v (rows.take (n - 1)) (k := cfg.accBits - n) (by omega)
    rw [← getLsbD_eq_ite, ← htop, hlen]
    congr 1
    omega
  case parity =>
    rw [getLsbD_systematic cfg v rows (by omega), if_pos (by omega), testBit_dotSum v rows j hj]
  case lost =>
    rw [systematic_toNat h, ← dotSum, Ne, Nat.mod_eq_iff_lt (Nat.two_pow_pos _).ne', Nat.not_lt,
      two_pow_le_iff_exists_testBit, exists_testBit_iff_lost]

/-- A sequence that runs begins with a command that runs, which writes the registers at most (R98). -/
theorem exists_exec_of_execAll_cons {i : Instr} {is : List Instr} {s t : State} (h : execAll (i :: is) s = .next t) :
    ∃ r : Regs s.cfg, exec i s = .next (s.withRegs r) ∧ execAll is (s.withRegs r) = .next t := by
  obtain ⟨r, hr⟩ | ⟨hr, -⟩ := exec_cases i s
  · exact ⟨r, hr, (execAll_cons_next hr is).symm.trans h⟩
  · rw [execAll_cons_refused hr] at h; cases h

/-- A sequence that runs lets the commands after it go on from the state it leaves (R47). -/
theorem execAll_append_next {is : List Instr} {s t : State} (h : execAll is s = .next t) (js : List Instr) :
    execAll (is ++ js) s = execAll js t := by
  induction is generalizing s with
  | nil => cases h; rfl
  | cons i is ih =>
    obtain ⟨r, hexec, hrest⟩ := exists_exec_of_execAll_cons h
    rw [List.cons_append, execAll_cons_next hexec, ih hrest]

/-- A sequence that runs writes the registers at most (R98). -/
theorem execAll_next_eq_withRegs {is : List Instr} {s t : State} (h : execAll is s = .next t) :
    ∃ r : Regs s.cfg, t = s.withRegs r := by
  induction is generalizing s with
  | nil => cases h; exact ⟨t.regs, rfl⟩
  | cons i is ih =>
    obtain ⟨r, -, hrest⟩ := exists_exec_of_execAll_cons h
    exact ih (s := s.withRegs r) hrest

/-- Settles O32: the commands before leave other registers at most, and the start command writes both. -/
theorem aStartCommandDiscardsTheFoldInProgress : Obligations.AStartCommandDiscardsTheFoldInProgress := by
  intro s t before v rows hbefore
  obtain ⟨r, rfl⟩ := execAll_next_eq_withRegs hbefore
  rw [execAll_append_next hbefore, execAll_append_next hbefore]
  exact ⟨execAll_start_rows (exec_setp_operandOf (s.withRegs r) v) rows,
    fun h => execAll_start_rows (exec_sets_operandOf (s := s.withRegs r) h v) rows⟩

end Sys2Proof.Machine
end

section
/-! PROOF. Which commands complete, and what a refusal leaves (60_exceptions.md R110 to R112; 70_reset_and_hazards.md
R130, R140). -/

namespace Sys2Proof.Machine

open Safety

/-- Settles O18: exec has the two outcomes, the refused command has the opcode of `sets`, and `Fault` has no element. -/
theorem everyCommandCompletesButTheRefusedSets : Obligations.EveryCommandCompletesButTheRefusedSets := by
  refine ⟨fun i s => ?_, fun _ _ => nofun, fun _ => nofun⟩
  obtain ⟨r, hr⟩ | ⟨hr, -⟩ := exec_cases i s
  · exact .inl ⟨s.withRegs r, hr⟩
  · obtain ⟨hop, hwider⟩ := (exec_refused_iff i s).mp hr
    exact .inr ⟨hr, BitVec.eq_of_toNat_eq hop, hwider⟩

/-- A command completes exactly where it is legal (R110, R111, R137 (g)). -/
theorem exists_exec_next_iff_legalIn (i : Instr) (s : State) :
    (∃ t, exec i s = .next t) ↔ legalIn s.cfg i = true := by
  cases i with
  | nop _ | setp _ | row _ => exact iff_of_true ⟨_, rfl⟩ rfl
  | sets v =>
    have hlegal : legalIn s.cfg (.sets v) = true ↔ ¬ s.cfg.accBits < s.cfg.vecBits :=
      (sysEn_iff s.cfg).trans Nat.not_lt.symm
    have hrefused : exec (.sets v) s = .refused .setsNotInConfig ↔ s.cfg.accBits < s.cfg.vecBits :=
      (exec_refused_iff (.sets v) s).trans (and_iff_right rfl)
    rw [exists_next_iff_not_refused, hlegal, hrefused]

/-- Settles O48, by induction on the commands: each completes and leaves the configuration, so the next is legal too. -/
theorem legalCommandsRunToAnEnd : Obligations.LegalCommandsRunToAnEnd := by
  intro s is h
  induction is generalizing s with
  | nil => exact ⟨s.regs, rfl⟩
  | cons i is ih =>
    obtain ⟨hi, his⟩ := List.forall_mem_cons.mp h
    obtain ⟨t, hexec⟩ := (exists_exec_next_iff_legalIn i s).mpr hi
    obtain ⟨r, rfl⟩ := exec_next_eq_withRegs hexec
    obtain ⟨r', hrest⟩ := ih (s.withRegs r) his
    exact ⟨r', (execAll_cons_next hexec is).trans hrest⟩

/-- A step answers a next state or the one refusal (R110, R111). -/
theorem step_next_or_refused (s : State) : (∃ t, step s = .next t) ∨ step s = .refused .setsNotInConfig := by
  cases hmark : s.refusedMark with
  | true => exact .inr (step_refusedMark hmark)
  | false =>
    cases hevent : s.currentCycle.event with
    | reset => exact .inl ⟨_, step_reset hmark hevent⟩
    | hold => exact .inl ⟨_, step_hold hmark hevent⟩
    | accept w =>
      rw [step_accept hmark hevent]
      obtain ⟨r, hr⟩ | ⟨hr, -⟩ := exec_cases (decode s.cfg w) s.endCycle
      · exact .inl ⟨_, hr⟩
      · exact .inr hr

/-- The only refusal of a step is SETS_NOT_IN_CONFIG (R111). -/
theorem eq_setsNotInConfig_of_step_refused {s : State} {r : Refusal} (h : step s = .refused r) :
    r = .setsNotInConfig := by
  obtain ⟨t, ht⟩ | hr := step_next_or_refused s
  · rw [ht] at h; cases h
  · rw [hr] at h; cases h; rfl

/-- Advancing by a step that answers a next state gives that state. -/
theorem State.advance_of_next {s t : State} (h : step s = .next t) : s.advance = t := by
  simp only [State.advance, h]

/-- Advancing by a refused step sets the mark (R111). -/
theorem State.advance_of_refused {s : State} {r : Refusal} (h : step s = .refused r) :
    s.advance = s.markRefused := by
  simp only [State.advance, h]

/-- A marked state is advanced to itself (R111). -/
theorem State.advance_of_refusedMark {s : State} (h : s.refusedMark = true) : s.advance = s := by
  rw [State.advance_of_refused (step_refusedMark h), State.markRefused, ← h]

/-- Settles O41: a marked state is a fixed point of advancing, and its first step is refused. -/
theorem aRefusedRunIsNeverResumed : Obligations.ARefusedRunIsNeverResumed :=
  ⟨fun _ _ h => ⟨eq_setsNotInConfig_of_step_refused h, State.advance_of_refused h⟩,
    fun _ h k => ⟨Function.iterate_fixed (State.advance_of_refusedMark h) k, core_run_refused (step_refusedMark h) k⟩⟩

end Sys2Proof.Machine
end

section
/-! PROOF. Which runs of the clocked block are safe (60_exceptions.md R111, R124; 70_reset_and_hazards.md R137, R140). -/

namespace Sys2Proof.Machine

open Safety

/-- With no cycle listed the current cycle offers nothing (log 4). -/
theorem PortCycle.idle_event (n : Nat) : (PortCycle.idle n).event = .hold := rfl

/-- The end of a cycle changes nothing where none is listed (log 4). -/
theorem State.endCycle_of_nil {s : State} (h : s.cycles = []) : s.endCycle = s := by
  rw [State.endCycle, h, List.tail_nil, ← h]

/-- Settles O38: the idle cycle holds the registers. -/
theorem anIdleStepChangesNothing : Obligations.AnIdleStepChangesNothing := by
  intro s hmark hnil
  have hidle : s.currentCycle = PortCycle.idle s.cfg.cmdBits := by rw [State.currentCycle, hnil, List.headD_nil]
  rw [step_hold hmark (by rw [hidle, PortCycle.idle_event]), State.endCycle_of_nil hnil]

/-- A cycle whose accepted word, if it accepts one, is that of a legal command (R137 (g)). -/
def AcceptsLegal (cfg : Config) (c : PortCycle cfg.cmdBits) : Prop :=
  ∀ w : BitVec cfg.cmdBits, c.event = .accept w → legalIn cfg (decode cfg w) = true

theorem acceptsLegal_idle (cfg : Config) : AcceptsLegal cfg (PortCycle.idle cfg.cmdBits) := nofun

/-- An unmarked state has a next one exactly when its current cycle accepts no illegal command (R111). -/
theorem exists_step_next_iff_acceptsLegal {s : State} (hmark : s.refusedMark = false) :
    (∃ t, step s = .next t) ↔ AcceptsLegal s.cfg s.currentCycle := by
  cases hevent : s.currentCycle.event with
  | reset => exact iff_of_true ⟨_, step_reset hmark hevent⟩ (by simp [AcceptsLegal, hevent])
  | hold => exact iff_of_true ⟨_, step_hold hmark hevent⟩ (by simp [AcceptsLegal, hevent])
  | accept w =>
    have honly : AcceptsLegal s.cfg s.currentCycle ↔ legalIn s.cfg (decode s.cfg w) = true := by
      simp [AcceptsLegal, hevent]
    rw [step_accept hmark hevent, honly]
    exact exists_exec_next_iff_legalIn _ s.endCycle

/-- A run of one step more is safe when its first step answers a state from which the rest is safe (R140). -/
theorem safeRun_succ_iff (k : Nat) (s : State) : SafeRun (k + 1) s ↔ ∃ t, step s = .next t ∧ SafeRun k t := by
  obtain ⟨t, ht⟩ | hr := step_next_or_refused s
  · simp [SafeRun, core_run_next ht, ht]
  · simp [SafeRun, core_run_refused hr, hr]

/-- What holds of the default element holds of a list's first `k + 1` elements when it holds of its head, the default
standing in, and of the first `k` after it. -/
theorem forall_mem_take_succ_iff {α : Type} {p : α → Prop} {d : α} (hd : p d) (k : Nat) (l : List α) :
    (∀ a ∈ l.take (k + 1), p a) ↔ p (l.headD d) ∧ ∀ a ∈ l.tail.take k, p a := by
  cases l with
  | nil => simp [hd]
  | cons a l => simp

/-- A run of any length from an unmarked state is safe exactly when the listed cycles it closes accept legal commands,
by induction on its steps: each closes one cycle, and an idle one closed after the last listed is legal (log 4). -/
theorem safeRun_iff_acceptsLegal {s : State} (hmark : s.refusedMark = false) (k : Nat) :
    SafeRun k s ↔ ∀ c ∈ s.cycles.take k, AcceptsLegal s.cfg c := by
  induction k generalizing s with
  | zero => exact iff_of_true ⟨s, rfl⟩ (by simp)
  | succ k ih =>
    rw [safeRun_succ_iff, forall_mem_take_succ_iff (acceptsLegal_idle s.cfg)]
    constructor
    · rintro ⟨t, hstep, hrest⟩
      obtain ⟨r, rfl⟩ := step_next_eq_withRegs hstep
      exact ⟨(exists_step_next_iff_acceptsLegal hmark).mp ⟨_, hstep⟩, (ih (s := s.endCycle.withRegs r) hmark).mp hrest⟩
    · rintro ⟨hfirst, hrest⟩
      obtain ⟨t, hstep⟩ := (exists_step_next_iff_acceptsLegal hmark).mpr hfirst
      obtain ⟨r, rfl⟩ := step_next_eq_withRegs hstep
      exact ⟨_, hstep, (ih (s := s.endCycle.withRegs r) hmark).mpr hrest⟩

/-- Settles O47: the run over the listed cycles closes all of them, and every other run closes some of them. -/
theorem runsAreSafeExactlyWithLegalCommands : Obligations.RunsAreSafeExactlyWithLegalCommands := by
  intro s hmark
  have hall : SafeRun s.cycles.length s ↔ ∀ c ∈ s.cycles, AcceptsLegal s.cfg c := by
    rw [safeRun_iff_acceptsLegal hmark, List.take_length]
  refine ⟨hall, fun hsafe k => (safeRun_iff_acceptsLegal hmark k).mpr fun c hc => ?_⟩
  exact hall.mp hsafe c (List.mem_of_mem_take hc)

end Sys2Proof.Machine
end

section
/-! PROOF. Several blocks: one system of them, and one product over two (60_exceptions.md R121). -/

namespace Sys2Proof.Machine

theorem System.getElem?_advanceAt_self (k : Nat) (sys : System) :
    (System.advanceAt k sys)[k]? = sys[k]?.map State.advance := List.getElem?_modify_eq ..

theorem System.getElem?_advanceAt_ne {k j : Nat} (h : k ≠ j) (sys : System) :
    (System.advanceAt k sys)[j]? = sys[j]? := List.getElem?_modify_ne _ _ h

/-- Edges of two different blocks commute: each place sees at most one of them (R121). -/
theorem System.advanceAt_comm {k j : Nat} (h : k ≠ j) (sys : System) :
    System.advanceAt k (System.advanceAt j sys) = System.advanceAt j (System.advanceAt k sys) := by
  apply List.ext_getElem?
  intro i
  obtain rfl | hk := eq_or_ne k i
  · rw [getElem?_advanceAt_self, getElem?_advanceAt_ne h.symm, getElem?_advanceAt_ne h.symm, getElem?_advanceAt_self]
  obtain rfl | hj := eq_or_ne j i
  · rw [getElem?_advanceAt_ne h, getElem?_advanceAt_self, getElem?_advanceAt_self, getElem?_advanceAt_ne h]
  · simp only [getElem?_advanceAt_ne hk, getElem?_advanceAt_ne hj]

/-- Settles O49: an edge at one place is one advance of the state there. -/
theorem blocksAreIndependent : Obligations.BlocksAreIndependent := by
  intro sys k j h
  have hself {s : State} (hs : sys[k]? = some s) : (System.advanceAt k sys)[k]? = some s.advance := by
    rw [System.getElem?_advanceAt_self, hs, Option.map_some]
  refine ⟨System.getElem?_advanceAt_ne h sys, System.getElem?_advanceAt_self k sys, List.length_modify ..,
    System.advanceAt_comm h sys, fun s t hs hstep => ?_, fun s r hs hstep => ?_⟩
  · rw [hself hs, State.advance_of_next hstep]
  · rw [hself hs, State.advance_of_refused hstep]
    rfl

/-- A fold is the initial ACC shifted past the rows, with their product below it (R88, R91). -/
theorem foldRows_acc_eq_shiftLeft_or_product {cfg : Config} (r : Regs cfg) (rows : List (BitVec cfg.vecBits)) :
    (foldRows r rows).acc = r.acc <<< rows.length ||| product cfg r.vec rows := by
  apply BitVec.eq_of_getLsbD_eq
  intro i hi
  rw [getLsbD_foldRows_acc, BitVec.getLsbD_or, BitVec.getLsbD_shiftLeft, getLsbD_product cfg r.vec rows hi]
  obtain h | h := Nat.lt_or_ge i rows.length
  · simp [h, hi]
  · simp [Nat.not_lt.mpr h, hi, testBit_dotSum_of_le r.vec rows h]

/-- Settles O31: the fold of the second rows starts from the product of the first. -/
theorem productOfSplitRows : Obligations.ProductOfSplitRows := by
  intro cfg v rows more
  rw [product, foldRows_append, foldRows_acc_eq_shiftLeft_or_product, foldRows_vec, startFold_vec, ← product]

end Sys2Proof.Machine
end

section
/-! PROOF. What an edge does with the cycle it closes (70_reset_and_hazards.md R130, R133, R134). -/

namespace Sys2Proof.Machine

/-- Settles O33, by induction on the rows: each of them leaves the state of reset to the next. -/
theorem rowsRightAfterResetChangeNothing : Obligations.RowsRightAfterResetChangeNothing := by
  intro cfg rows
  induction rows with
  | nil => rfl
  | cons d rows ih => exact (execAll_cons_next (exec_row_resetAt cfg d) _).trans ih

/-- A cycle with `rst` = 1 ends in a reset, whatever the host offers in it (R130). -/
theorem PortCycle.event_of_rst {n : Nat} {c : PortCycle n} (h : c.rst = true) : c.event = .reset := if_pos h

/-- A cycle with `rst` = 0, `cmd_valid` = 1 and `cmd_ready` = 1 ends in the acceptance of its word (R134). -/
theorem PortCycle.event_of_accept {n : Nat} {c : PortCycle n} (hrst : c.rst = false) (hvalid : c.cmdValid = true)
    (hready : c.cmdReady = true) : c.event = .accept c.cmdWord := by
  simp [PortCycle.event, hrst, hvalid, hready]

/-- A cycle with `rst` = 0 and without the handshake accepts nothing (R134). -/
theorem PortCycle.event_of_hold {n : Nat} {c : PortCycle n} (hrst : c.rst = false)
    (h : c.cmdValid = false ∨ c.cmdReady = false) : c.event = .hold := by
  obtain h | h := h <;> simp [PortCycle.event, hrst, h]

/-- Only the handshake with `rst` = 0 accepts a word: every other cycle resets or holds (R134). -/
theorem PortCycle.exists_event_accept_iff {n : Nat} (c : PortCycle n) :
    (∃ w, c.event = .accept w) ↔ c.rst = false ∧ c.cmdValid = true ∧ c.cmdReady = true := by
  constructor
  · rintro ⟨w, hw⟩
    cases hrst : c.rst with
    | true => rw [event_of_rst hrst] at hw; cases hw
    | false =>
      by_contra hno
      simp only [true_and, not_and_or, Bool.not_eq_true] at hno
      rw [event_of_hold hrst hno] at hw; cases hw
  · rintro ⟨hrst, hvalid, hready⟩
    exact ⟨_, event_of_accept hrst hvalid hready⟩

/-- An offered word waits in front of a block that is not ready (R134). -/
theorem PortCycle.offer_waiting_event {n : Nat} (w : BitVec n) : (PortCycle.offer w false).event = .hold := rfl

/-- The edge that closes an accepting cycle put first runs the decoded word on the state behind it (R83, R134). -/
theorem step_withCycle_accept {s : State} {c : PortCycle s.cfg.cmdBits} {w : BitVec s.cfg.cmdBits}
    (hmark : s.refusedMark = false) (h : c.event = .accept w) : step (s.withCycle c) = exec (decode s.cfg w) s :=
  step_accept (s := s.withCycle c) hmark h

/-- Settles O35: the reset is tested before the handshake, and the mark before the reset. -/
theorem aResetEdgeZeroesTheRegisters : Obligations.AResetEdgeZeroesTheRegisters := by
  intro s c hrst
  have hevent : c.event = .reset := PortCycle.event_of_rst hrst
  refine ⟨fun hmark => ?edge, hevent, ?ready, fun hmark => ?marked⟩
  case edge => exact step_reset (s := s.withCycle c) hmark hevent
  case ready => exact (PortCycle.cmdReady_eq_ite c).trans (if_pos hrst)
  case marked => rwa [State.advance_of_refusedMark (s := s.withCycle c) hmark]

/-- Settles O36: the handshake decides the cycle's event, and the event the step. -/
theorem aStepRunsTheAcceptedCommand : Obligations.AStepRunsTheAcceptedCommand := by
  intro s c hmark
  refine ⟨PortCycle.exists_event_accept_iff c, fun hrst hvalid hready => ?accepted, fun hrst hno => ?waiting⟩
  case accepted => exact step_withCycle_accept hmark (PortCycle.event_of_accept hrst hvalid hready)
  case waiting => exact step_hold (s := s.withCycle c) hmark (PortCycle.event_of_hold hrst hno)

/-- A table word that reads as an instruction reads as what its bits decode to (R10, log 5). -/
theorem eq_decode_of_decodeTableWord {nbits w : Nat} {i : Instr} (h : decodeTableWord nbits w = some i) :
    i = decode Config.reference (BitVec.ofNat Config.reference.cmdBits (w % 2 ^ nbits)) := by
  rw [decodeTableWord] at h
  obtain hlt | hle := Nat.lt_or_ge (w % 2 ^ nbits) (2 ^ Config.reference.cmdBits)
  · rw [decodeNumber_of_lt hlt] at h
    exact (Option.some.inj h).symm
  · rw [decodeNumber_of_le hle] at h
    cases h

/-- Settles O39: the placed word is offered to a ready block. -/
theorem aFetchedTableWordRunsNext : Obligations.AFetchedTableWordRunsNext := by
  have hplaced (s : State) (nbits w : Nat) (hmark : s.refusedMark = false) :
      step (s.withFetchWord nbits w) = exec (decode s.cfg (BitVec.ofNat s.cfg.cmdBits (w % 2 ^ nbits))) s :=
    step_withCycle_accept hmark (PortCycle.offer_ready_event _)
  refine ⟨fun nbits w i hi => ?_, hplaced⟩
  rw [eq_decode_of_decodeTableWord hi]
  exact hplaced State.reset nbits w rfl

end Sys2Proof.Machine
end

section
/-! PROOF. Waiting cycles: the outputs hold over them, and under weak fairness an offer waits finitely many of them
(70_reset_and_hazards.md R135, R138). -/

namespace Sys2Proof.Machine

/-- A run passes over waiting cycles with nothing but the cycles gone, by induction on their number; an idle cycle after
the last listed one waits too (R134, R135). -/
theorem core_run_waiting {s : State} (hmark : s.refusedMark = false) {m : Nat}
    (h : ∀ c ∈ s.cycles.take m, c.event = .hold) (j : Nat) :
    core.run (m + j) s = core.run j { s with cycles := s.cycles.drop m } := by
  induction m generalizing s with
  | zero => rw [Nat.zero_add, List.drop_zero]
  | succ m ih =>
    obtain ⟨hfirst, hrest⟩ :=
      (forall_mem_take_succ_iff (p := fun c => c.event = .hold) (PortCycle.idle_event _) m s.cycles).mp h
    rw [Nat.add_right_comm, core_run_next (step_hold hmark hfirst), ih (s := s.endCycle) hmark hrest]
    simp [State.endCycle]

/-- Settles O40: the accepting edge writes the registers, and waiting cycles do not. -/
theorem outputsShowTheStateBeforeTheClosingEdge : Obligations.OutputsShowTheStateBeforeTheClosingEdge := by
  refine ⟨fun s w r hmark hexec => ⟨⟨rfl, rfl⟩, ?accepting, rfl, rfl⟩, fun s waiting hmark hwaiting => ?waiting⟩
  case accepting => rw [step_withCycle_accept hmark (PortCycle.offer_ready_event w), hexec]
  case waiting =>
    have hrun := core_run_waiting (s := { s with cycles := waiting ++ s.cycles }) hmark
      (m := waiting.length) (by rwa [List.take_left]) 0
    rwa [Nat.add_zero, List.drop_left] at hrun

/-- A run of one step is that step. -/
theorem core_run_one (s : State) : core.run 1 s = step s := by
  obtain ⟨t, ht⟩ | hr := step_next_or_refused s
  · exact (core_run_next ht 0).trans ht.symm
  · exact (core_run_refused hr 0).trans hr.symm

/-- The cycles in which the host keeps one word on offer; `ready` gives the policy's choice in each (R138). -/
def offers {n : Nat} (w : BitVec n) (ready : Nat → Bool) (len : Nat) : List (PortCycle n) :=
  (List.range len).map fun j => .offer w (ready j)

theorem take_offers {n : Nat} (w : BitVec n) (ready : Nat → Bool) {m len : Nat} (h : m ≤ len) :
    (offers w ready len).take m = offers w ready m := by
  rw [offers, ← List.map_take, List.take_range, Nat.min_eq_left h, offers]

theorem drop_offers_last {n : Nat} (w : BitVec n) (ready : Nat → Bool) (len : Nat) :
    (offers w ready (len + 1)).drop len = [.offer w (ready len)] := by
  rw [offers, List.range_succ, List.map_append, List.drop_left' (by simp), List.map_singleton]

/-- While the policy is not ready every offer waits (R134). -/
theorem event_of_mem_offers {n : Nat} {w : BitVec n} {ready : Nat → Bool} {len : Nat}
    (h : ∀ j < len, ready j = false) {c : PortCycle n} (hc : c ∈ offers w ready len) : c.event = .hold := by
  obtain ⟨j, hj, rfl⟩ := List.mem_map.mp hc
  rw [h j (List.mem_range.mp hj), PortCycle.offer_waiting_event]

/-- A run over the offers of one word passes over those before the policy is first ready (R134, R138). -/
theorem core_run_offers {s : State} (hmark : s.refusedMark = false) (w : BitVec s.cfg.cmdBits) {ready : Nat → Bool}
    {n m : Nat} (hwait : ∀ j < n, ready j = false) (hm : m ≤ n) (j : Nat) :
    core.run (m + j) { s with cycles := offers w ready (n + 1) } =
      core.run j { s with cycles := (offers w ready (n + 1)).drop m } := by
  refine core_run_waiting (s := { s with cycles := offers w ready (n + 1) }) hmark (fun c hc => ?_) j
  rw [take_offers w ready (Nat.le_succ_of_le hm)] at hc
  exact event_of_mem_offers (fun j hj => hwait j (hj.trans_le hm)) hc

/-- Settles O42: weak fairness gives a first ready cycle `n`, the offers before it wait, and its own is accepted. -/
theorem anOfferedCommandIsEventuallyAccepted : Obligations.AnOfferedCommandIsEventuallyAccepted := by
  intro policy hfair k s w hmark
  let ready (j : Nat) : Bool := policy (k + j)
  obtain ⟨n, hready, hwait⟩ : ∃ n, ready n = true ∧ ∀ j < n, ready j = false :=
    ⟨Nat.find (hfair k), Nat.find_spec (hfair k), fun _ hj => Bool.eq_false_of_not_eq_true (Nat.find_min (hfair k) hj)⟩
  refine ⟨n, ?accepted, fun m hm => ⟨(offers w ready (n + 1)).drop m, core_run_offers hmark w hwait hm 0⟩⟩
  case accepted =>
    have hpass := core_run_offers hmark w hwait le_rfl 1
    rw [drop_offers_last, hready] at hpass
    have hlast : step { s with cycles := [.offer w true] } = exec (decode s.cfg w) { s with cycles := [] } :=
      step_withCycle_accept (s := { s with cycles := [] }) hmark (PortCycle.offer_ready_event w)
    exact hpass.trans ((core_run_one _).trans hlast)

end Sys2Proof.Machine
end
